-- ==== Sys2Proof/Word.lean ====
section
/-! DEFINITION. The bytes and numbers the codec works on (spec/00_scope.md R9 to R11). -/

namespace Sys2Proof

/-- A byte: an integer from 0 to 255 (R9). -/
abbrev Byte := BitVec 8

/-- The 64 bits of an IEEE 754 double-precision value (R11, R62): every value of the format, NaN,
infinities and both zeros among them. PRESUMED: the format itself (log entry 15). -/
abbrev Binary64 := BitVec 64

/-- What a binary64 value denotes. A finite magnitude is counted in units of 2^-1074, the smallest
positive binary64, so that every finite value is a whole number of units. -/
inductive Real64 where
  | nan
  | inf (neg : Bool)
  | finite (neg : Bool) (units : Nat)
  deriving DecidableEq, Repr

end Sys2Proof
end

