-- ==== Sys2Proof/Syntax.lean ====
section
/-! DEFINITION. The thirteen operations (spec/30_encoding.md R61), the request that carries one
(R61, R62), and the host's moves. -/

namespace Sys2Proof

/-- One constructor per row of spec/opcode_table.json. Operands are typed and unrestricted (R62): a
byte sequence of any length, an unbounded integer, any binary64 value. -/
inductive Instr where
  /-- CONNECT (R110) -/
  | connect
  /-- ENCODE P (R120) -/
  | encode (payload : List Byte)
  /-- SEND P (R125) -/
  | send (payload : List Byte)
  /-- DECODE F (R180) -/
  | decode (frame : List Byte)
  /-- CHECKSUM B (R100) -/
  | checksum (bytes : List Byte)
  /-- ENC_PROFILE p (R144) -/
  | encProfile (p : Int)
  /-- ENC_SPEED r (R145) -/
  | encSpeed (r : Int)
  /-- ENC_ACCEL s (R148) -/
  | encAccel (seconds : Binary64)
  /-- ENC_DECEL s (R149) -/
  | encDecel (seconds : Binary64)
  /-- ENC_FWD (R151) -/
  | encFwd
  /-- ENC_BWD (R152) -/
  | encBwd
  /-- ENC_STOP (R153) -/
  | encStop
  /-- ENC_QUERY (R154) -/
  | encQuery
  deriving DecidableEq, Repr

/-- An operation request (format REQ, R60, R61): the opcode byte OPC[7:0] and the operand, which
arrives on the lane of its type (R62). An operation reads the lane of its own operand and no other.
DESIGN CHOICE: the lanes (log entry 1). -/
structure Request where
  opc : Byte
  bytes : List Byte := []
  int : Int := 0
  real : Binary64 := 0
  deriving DecidableEq, Repr

/-- What the host does to the codec: it issues a request (R6), or resets the block (R240, R241). -/
inductive HostMove where
  | issue (r : Request)
  | reset
  deriving DecidableEq, Repr

end Sys2Proof
end

