-- ==== Sys2Proof/Decode.lean ====
section
/-! DEFINITION. From a request to its operation (spec/30_encoding.md R61, R62, R69), and back. -/

namespace Sys2Proof

/-- Why a request is no operation: its opcode is not listed in R61 (R69). -/
inductive Reject where
  | illegalOperation (opc : Byte)
  deriving DecidableEq, Repr

/-- The operation a request names. All eight opcode bits must match (R61); every other value is
illegal, and then no operand is examined (R69, R203). OPC[7:4] is the group: 0 holds the session, frame
and checksum operations, 1 the command encoders. -/
def decode (r : Request) : Except Reject Instr :=
  match r.opc with
  | 0x00#8 => .ok .connect
  | 0x01#8 => .ok (.encode r.bytes)
  | 0x02#8 => .ok (.send r.bytes)
  | 0x03#8 => .ok (.decode r.bytes)
  | 0x04#8 => .ok (.checksum r.bytes)
  | 0x10#8 => .ok (.encProfile r.int)
  | 0x11#8 => .ok (.encSpeed r.int)
  | 0x12#8 => .ok (.encAccel r.real)
  | 0x13#8 => .ok (.encDecel r.real)
  | 0x14#8 => .ok .encFwd
  | 0x15#8 => .ok .encBwd
  | 0x16#8 => .ok .encStop
  | 0x17#8 => .ok .encQuery
  | _ => .error (.illegalOperation r.opc)

/-- The request that carries an operation: its opcode of R61 and its operand, the other lanes empty. -/
def encode : Instr → Request
  | .connect => { opc := 0x00#8 }
  | .encode payload => { opc := 0x01#8, bytes := payload }
  | .send payload => { opc := 0x02#8, bytes := payload }
  | .decode frame => { opc := 0x03#8, bytes := frame }
  | .checksum bytes => { opc := 0x04#8, bytes := bytes }
  | .encProfile p => { opc := 0x10#8, int := p }
  | .encSpeed r => { opc := 0x11#8, int := r }
  | .encAccel seconds => { opc := 0x12#8, real := seconds }
  | .encDecel seconds => { opc := 0x13#8, real := seconds }
  | .encFwd => { opc := 0x14#8 }
  | .encBwd => { opc := 0x15#8 }
  | .encStop => { opc := 0x16#8 }
  | .encQuery => { opc := 0x17#8 }

/-- The rows of R61's table: opcode and mnemonic. -/
def opcodeTable : List (Byte × String) :=
  [(0x00#8, "CONNECT"), (0x01#8, "ENCODE"), (0x02#8, "SEND"), (0x03#8, "DECODE"), (0x04#8, "CHECKSUM")]
  ++ [(0x10#8, "ENC_PROFILE"), (0x11#8, "ENC_SPEED"), (0x12#8, "ENC_ACCEL"), (0x13#8, "ENC_DECEL")]
  ++ [(0x14#8, "ENC_FWD"), (0x15#8, "ENC_BWD"), (0x16#8, "ENC_STOP"), (0x17#8, "ENC_QUERY")]

/-- The mnemonic of an operation (R61, R72). -/
def Instr.mnemonic : Instr → String
  | .connect => "CONNECT"
  | .encode _ => "ENCODE"
  | .send _ => "SEND"
  | .decode _ => "DECODE"
  | .checksum _ => "CHECKSUM"
  | .encProfile _ => "ENC_PROFILE"
  | .encSpeed _ => "ENC_SPEED"
  | .encAccel _ => "ENC_ACCEL"
  | .encDecel _ => "ENC_DECEL"
  | .encFwd => "ENC_FWD"
  | .encBwd => "ENC_BWD"
  | .encStop => "ENC_STOP"
  | .encQuery => "ENC_QUERY"

/-- The request whose opcode byte is w, with an empty operand on every lane. -/
def tableRequest (w : Nat) : Request := { opc := BitVec.ofNat 8 w }

/-- The operation the decoder reads from a row of spec/opcode_table.json: every row has 8 bits. -/
def decodeTableWord (nbits w : Nat) : Option Instr :=
  if nbits = 8 ∧ w < 256 then (decode (tableRequest w)).toOption else none

end Sys2Proof
end

