-- ==== Sys2Proof/Config.lean ====
section
/-! DEFINITION. The constants the source fixes (spec/00_scope.md R7), the parameters it leaves open
(R8), and the free values (R12). -/

namespace Sys2Proof

/-! ## Constants (R7). ELAPSED_MOD = 65536 and SEQ_MOD = 256 stand in `Machine.elapsed` and
`Machine.seqByte`, the operand domains in Machine/Operands.lean. -/

/-- FRAME_LEN. -/
abbrev Config.frameLen : Nat := 40
/-- PAYLOAD_LEN. -/
abbrev Config.payloadLen : Nat := 35
/-- MARKER. -/
abbrev Config.marker : Byte := 0xFF#8
/-- HS_REQ, the handshake request byte (R64). -/
abbrev Config.hsReq : Byte := 0x06#8
/-- HS_ACK, the handshake accept byte (R64). -/
abbrev Config.hsAck : Byte := 0x86#8
/-- CLASS_HDR, payload bytes 0..2 of every parameterised command. -/
abbrev Config.classHdr : List Byte := [0x03#8, 0x00#8, 0x01#8]

/-! ## Parameters (R8) -/

/-- DECODE_MODE, the inbound checksum policy (R8, R29, R182). -/
inductive DecodeMode where
  | permissive
  | strict
  deriving DecidableEq, Repr, Inhabited

/-- LOCAL_SUM as plain data: the decided algorithm (spec/92 D9, R141), or any other one, of which
nothing is known. DESIGN CHOICE: the form (log entry 5). -/
inductive LocalSum where
  | xorFold
  | other (which : Nat)
  deriving DecidableEq, Repr, Inhabited

/-- The configuration: the named parameters of R8 (and LINE_SETTINGS of spec/92 D28). It is fixed for
the life of the block (R29). `profilePatch` lists PROFILE_PATCH(p) for p = 0..15. The two transport
settings are uninterpreted and no rule reads them (R12; log entry 20). -/
structure Config where
  payloadFwd : Vector Byte 35
  payloadBwd : Vector Byte 35
  payloadStop : Vector Byte 35
  payloadQuery : Vector Byte 35
  kProfile : Nat
  kSpeed : Nat
  kRamp : Nat
  tplProfile : List Byte
  tplSpeed : List Byte
  tplRamp : List Byte
  offSpeed : Nat
  offRamp : Nat
  offRampOp : Nat
  opAccel : Byte
  opDecel : Byte
  profilePatch : Vector (List (Nat × Byte)) 16
  localSum : LocalSum
  decodeMode : DecodeMode
  readTimeout : Nat
  lineSettings : Nat
  deriving DecidableEq, Repr, Inhabited

/-! ## Answers of the other agents (R5, R12) -/

/-- What the transport answers to a write (R12). On a failure, `sent` bytes of it, a prefix, are on
the wire all the same (spec/92 D23). -/
inductive WriteAnswer where
  | ok
  | ioError (sent : Nat)
  deriving DecidableEq, Repr, Inhabited

/-- What the transport answers to a read (R12): bytes in arrival order (R43), or a failure. -/
inductive ReadAnswer where
  | ok (bytes : List Byte)
  | ioError
  deriving DecidableEq, Repr, Inhabited

/-! ## Free values: nothing in Lean can evaluate them or prove a value of them -/

/-- The parameters the block is instantiated with, where a run starts from reset (R32, log entry 4). -/
opaque Config.chosen : Config

/-- LOCAL_SUM where it is not the decided XOR fold (R8, log entry 5). -/
opaque Config.otherSum : Nat → List Byte → Byte

/-- `Now()`: the time source's n-th answer, where none is listed (spec/92 D4, log entry 6). -/
opaque Config.freeNow : Nat → Int

/-- The transport's n-th answer, to a write, where none is listed (R12, log entry 7). -/
opaque Config.freeWrite : Nat → WriteAnswer

/-- The transport's n-th answer, to a read, where none is listed (R12, log entry 7). -/
opaque Config.freeRead : Nat → ReadAnswer

/-- What stands for the epoch where it is `none` and is read all the same. R24: no run asks for it
(log entry 11). -/
opaque Config.freeEpoch : Int

end Sys2Proof
end

