-- ==== Sys2Proof/Machine/Operands.lean ====
section
/-! DEFINITION. How fields are built from operands and read out of buffers (spec/00_scope.md R9 to
R11, spec/30_encoding.md R68), and the ramp-time operand (spec/43_command_encoders.md R146, R147). -/

namespace Sys2Proof.Machine

/-! ## Byte sequences and integers (R9, R10) -/

/-- The half-open slice B[i..<j] (R9). -/
def slice (B : List Byte) (i j : Nat) : List Byte := (B.drop i).take (j - i)

/-- zeros(n) (R9). -/
def zeros (n : Nat) : List Byte := List.replicate n 0x00#8

/-- le16(v), least significant byte first (R10). -/
def le16 (v : Nat) : List Byte := [BitVec.ofNat 8 (v % 256), BitVec.ofNat 8 (v / 256)]

/-- le32(u), least significant byte first (R184). -/
def le32 (u : Nat) : List Byte := le16 (u % 65536) ++ le16 (u / 65536)

/-- sext_32(u): two's complement (R10). PRESUMED in the spec itself (log entry 15). -/
def sext32 (u : Nat) : Int := if u < 2 ^ 31 then u else (u : Int) - 2 ^ 32

/-- The unsigned value of a byte sequence, least significant byte first. -/
def leValue : List Byte → Nat
  | [] => 0
  | b :: bs => b.toNat + 256 * leValue bs

/-- le32s(B): the signed integer of a 4-byte sequence (R10). -/
def le32s (B : List Byte) : Int := sext32 (leValue B)

/-! ## The numeric view of binary64 (R11) -/

/-- How many bits n has; 0 has none. -/
def bitLength (n : Nat) : Nat := if n = 0 then 0 else Nat.log2 n + 1

/-- The number 1 in units of 2^-1074. -/
def oneUnits : Nat := 2 ^ 1074

/-- The first magnitude, in units, that is too large for the format: 2^1024. -/
def overflowUnits : Nat := 2 ^ 1024 * oneUnits

/-- The value a bit pattern denotes: sign bit 63, exponent bits 62..52, fraction bits 51..0. -/
def view (x : Binary64) : Real64 :=
  let neg := x.getLsbD 63
  let exponent := (x.extractLsb' 52 11).toNat
  let fraction := (x.extractLsb' 0 52).toNat
  if exponent = 2047 then (if fraction = 0 then .inf neg else .nan)
  else if exponent = 0 then .finite neg fraction
  else .finite neg ((2 ^ 52 + fraction) * 2 ^ (exponent - 1))

/-- The exact quotient n / d as a whole number, rounded to nearest, ties to even (R11). -/
def roundEven (n d : Nat) : Nat :=
  if 2 * (n % d) > d ∨ (2 * (n % d) = d ∧ n / d % 2 = 1) then n / d + 1 else n / d

/-- The magnitude n / d, in units, rounded to the nearest one of the format, ties to even: 53
significant bits, and no finer than one unit. -/
def roundUnits (n d : Nat) : Nat :=
  let ulp := 2 ^ (bitLength (n / d) - 53)
  roundEven n (d * ulp) * ulp

/-- A rounded magnitude as a value: an infinity where it is too large. -/
def finiteOrInf (neg : Bool) (units : Nat) : Real64 :=
  if units < overflowUnits then .finite neg units else .inf neg

/-- fmul64(a, b): the binary64 product, rounded to nearest, ties to even (R11). -/
def fmul64 : Real64 → Real64 → Real64
  | .nan, _ => .nan
  | _, .nan => .nan
  | .inf m, .inf n => .inf (m ^^ n)
  | .inf m, .finite n b => if b = 0 then .nan else .inf (m ^^ n)
  | .finite m a, .inf n => if a = 0 then .nan else .inf (m ^^ n)
  | .finite m a, .finite n b => finiteOrInf (m ^^ n) (roundUnits (a * b) oneUnits)

/-- A finite value in units, signed. -/
def signedUnits (neg : Bool) (units : Nat) : Int := if neg then -(units : Int) else units

/-- a <= b; a comparison with a NaN is false (R11). -/
def le64 : Real64 → Real64 → Bool
  | .nan, _ => false
  | _, .nan => false
  | .inf m, .inf n => m || !n
  | .inf m, .finite _ _ => m
  | .finite _ _, .inf n => !n
  | .finite m a, .finite n b => signedUnits m a ≤ signedUnits n b

/-- trunc(v): toward zero (R11); a NaN or an infinity has no integer. -/
def trunc : Real64 → Option Int
  | .finite neg units => some (signedUnits neg (units / oneUnits))
  | _ => none

/-- The binary64 bits of a finite magnitude of the format. -/
def packUnits (neg : Bool) (units : Nat) : Binary64 :=
  let n := bitLength units
  let low := if n ≤ 52 then units else (n - 52) * 2 ^ 52 + (units / 2 ^ (n - 53) - 2 ^ 52)
  BitVec.ofNat 64 ((if neg then 2 ^ 63 else 0) + low)

/-- The binary64 value nearest to the decimal n / d (R72, R147), ties to even. -/
def nearest64 (neg : Bool) (n d : Nat) : Binary64 :=
  let units := roundUnits (n * oneUnits) d
  if units < overflowUnits then packUnits neg units
  else BitVec.ofNat 64 ((if neg then 2 ^ 63 else 0) + 2047 * 2 ^ 52)

/-! ## Operand domains (R7, R143 to R146) -/

/-- PROFILE domain: 0 ≤ p < 16 (R144). -/
def profileInDomain (p : Int) : Bool := 0 ≤ p && p < 16

/-- RPM domain: 50 ≤ r ≤ 3000 (R145). -/
def rpmInDomain (r : Int) : Bool := 50 ≤ r && r ≤ 3000

/-- 0.5, 10.0 and 15.0 as binary64 values (R146, R147). -/
def half64 : Real64 := .finite false (oneUnits / 2)
def ten64 : Real64 := .finite false (10 * oneUnits)
def fifteen64 : Real64 := .finite false (15 * oneUnits)

/-- RAMP domain: 0.5 <= s and s <= 15.0 (R146). -/
def rampInDomain (seconds : Binary64) : Bool :=
  le64 half64 (view seconds) && le64 (view seconds) fifteen64

/-- tenths(s) = trunc(fmul64(s, 10.0)) (R147, spec/90 C1). R147 gives it for s of R146's domain; there
the product is finite and the result lies in 5..150. -/
def tenths (seconds : Binary64) : Nat :=
  ((trunc (fmul64 (view seconds) ten64)).getD 0).toNat

end Sys2Proof.Machine
end

