-- ==== Sys2Proof/WellFormed.lean ====
section
/-! DEFINITION. What the spec asks of an instantiation (spec/00_scope.md R8) and of an operand. Every
operand can be requested (spec/30_encoding.md R62): one outside its domain is answered by an error
status, and nothing is ever refused. -/

namespace Sys2Proof

/-- R8 on K_PROFILE, TPL_PROFILE and PROFILE_PATCH. -/
abbrev Config.ProfileOk (c : Config) : Prop :=
  (4 ≤ c.kProfile ∧ c.kProfile ≤ 34) ∧ c.tplProfile.length = c.kProfile - 3 ∧
  ∀ W ∈ c.profilePatch.toList, (∀ w ∈ W, 3 ≤ w.1 ∧ w.1 ≤ c.kProfile - 1) ∧ (W.map Prod.fst).Nodup

/-- R8 on K_SPEED, TPL_SPEED and OFF_SPEED. -/
abbrev Config.SpeedOk (c : Config) : Prop :=
  (4 ≤ c.kSpeed ∧ c.kSpeed ≤ 34) ∧ c.tplSpeed.length = c.kSpeed - 3 ∧
  (3 ≤ c.offSpeed ∧ c.offSpeed + 2 ≤ c.kSpeed)

/-- R8 on K_RAMP, TPL_RAMP, OFF_RAMP, OFF_RAMP_OP, OP_ACCEL and OP_DECEL. -/
abbrev Config.RampOk (c : Config) : Prop :=
  (4 ≤ c.kRamp ∧ c.kRamp ≤ 34) ∧ c.tplRamp.length = c.kRamp - 3 ∧
  (3 ≤ c.offRamp ∧ c.offRamp < c.kRamp) ∧ (3 ≤ c.offRampOp ∧ c.offRampOp < c.kRamp) ∧
  c.offRampOp ≠ c.offRamp ∧ c.opAccel ≠ c.opDecel

/-- The constraints of R8. The lengths of the four fixed payloads stand in their type. -/
abbrev Config.WellFormed (c : Config) : Prop := c.ProfileOk ∧ c.SpeedOk ∧ c.RampOk

/-- Some instantiation that meets R8. It stands for `Config.chosen` only if that one does not; no
claim rests on a value of it (log entry 4). -/
def Config.fallback : Config where
  payloadFwd := Vector.replicate 35 0
  payloadBwd := Vector.replicate 35 0
  payloadStop := Vector.replicate 35 0
  payloadQuery := Vector.replicate 35 0
  kProfile := 4
  kSpeed := 5
  kRamp := 5
  tplProfile := [0]
  tplSpeed := [0, 0]
  tplRamp := [0, 0]
  offSpeed := 3
  offRamp := 3
  offRampOp := 4
  opAccel := 0
  opDecel := 1
  profilePatch := Vector.replicate 16 []
  localSum := .xorFold
  decodeMode := .permissive
  readTimeout := 0
  lineSettings := 0

/-- What the block is instantiated with (R32): values of which only R8's constraints are known, with
the defaults the spec gives, LOCAL_SUM = xor_fold (R141) and DECODE_MODE = permissive (R182). -/
def Config.instantiated : Config :=
  { (if Config.chosen.WellFormed then Config.chosen else Config.fallback) with
    localSum := .xorFold, decodeMode := .permissive }

/-- The operand lies in the domain its operation's rule gives (R120, R125, R180, R144 to R146), so
that the operation ends with no usage error of its operand (R201). -/
def Instr.wellFormed : Instr → Bool
  | .connect => true
  | .encode payload => payload.length == Config.payloadLen
  | .send payload => payload.length == Config.payloadLen
  | .decode frame => frame.length == Config.frameLen
  | .checksum _ => true
  | .encProfile p => Machine.profileInDomain p
  | .encSpeed r => Machine.rpmInDomain r
  | .encAccel seconds => Machine.rampInDomain seconds
  | .encDecel seconds => Machine.rampInDomain seconds
  | .encFwd => true
  | .encBwd => true
  | .encStop => true
  | .encQuery => true

end Sys2Proof
end

