-- ==== Sys2Proof/Machine/State.lean ====
section
/-! DEFINITION. The state (spec/10_state.md), what the other agents see and say (spec/00_scope.md R5,
R6, R12), and its value after reset (R32, R240). All of it is plain data. -/

namespace Sys2Proof.Machine

/-- The session S, the codec's architectural state (R22). -/
structure Session where
  /-- `S.connected` (R23) -/
  connected : Bool
  /-- `S.epoch`, in integer milliseconds, or no value (R24) -/
  epoch : Option Int
  /-- `S.sequence`, unbounded (R25) -/
  sequence : Nat
  deriving DecidableEq, Repr

/-- The status that ends an operation (R201). -/
inductive Status where
  | ok
  | notConnected
  | handshakeRejected
  | invalidPayloadLength
  | invalidFrameLength
  | outOfRange
  | timeout
  | ioError
  | illegalOperation
  | alreadyConnected
  | checksumMismatch
  deriving DecidableEq, Repr

/-- RawStatus, the decoded inbound frame (R181). The counters are signed integers, as `le32s` gives
them (R10). -/
structure RawStatus where
  counter0 : Int
  counter1 : Int
  aux : List Byte
  deriving DecidableEq, Repr

/-- The result column of R61. An operation that ends with an error has the empty result (R200). -/
inductive Result where
  | empty
  | byte (b : Byte)
  | bytes (bs : List Byte)
  | rawStatus (r : RawStatus)
  deriving DecidableEq, Repr

/-- What the host receives for a request (R6, R200). -/
structure Response where
  status : Status
  result : Result
  deriving DecidableEq, Repr

/-- One thing the codec asked of the time source or of the transport, with the answer it got (R46),
or a block reset. A write's answer says how much of it is on the wire. -/
inductive Event where
  | now (t : Int)
  | txWrite (bytes : List Byte) (answer : WriteAnswer)
  | txRead (n : Nat) (answer : ReadAnswer)
  | blockReset
  deriving DecidableEq, Repr

/-- The transport and the time source (R5): their answers to come, what has been asked of them so
far (oldest first), and how many answers have been drawn. DESIGN CHOICE: the form (log entries 6, 7,
8). -/
structure Env where
  clock : List Int
  writes : List WriteAnswer
  reads : List ReadAnswer
  trace : List Event
  draws : Nat
  deriving DecidableEq, Repr

/-- The machine: the session, the configuration (R29), the host's moves to come (the first is taken
next; R47, R244), the last response, and the other two agents. -/
structure State where
  session : Session
  config : Config
  pending : List HostMove
  response : Option Response
  env : Env
  deriving DecidableEq, Repr

/-- Nothing stops the codec with a fault: it has no traps, and every error is a status that ends one
request (R200, R205). No constructor, so nothing raises one; safe (log entry 17). -/
inductive Fault where
  deriving DecidableEq, Repr

/-- Why a step has no meaning. -/
inductive Refusal where
  /-- `exec` raises it for an operation whose meaning is not written; no arm does. Safe. -/
  | notModelled (mnemonic : String)
  deriving DecidableEq, Repr

/-- The session after reset (R32). -/
def Session.reset : Session := { connected := false, epoch := none, sequence := 0 }

/-- The machine after reset: the session of R32, the configuration as instantiated, and no move, no
response and no history yet (DESIGN CHOICE for the model's own fields: log entry 21). -/
def State.reset : State where
  session := Session.reset
  config := Config.instantiated
  pending := []
  response := none
  env := { clock := [], writes := [], reads := [], trace := [], draws := 0 }

end Sys2Proof.Machine
end

