-- ==== Sys2Proof/Machine/Flags.lean ====
section
/-! DEFINITION. Status codes and kinds (spec/60_exceptions.md R201), and how an operation ends. The
codec's only flag is `S.connected` (spec/10_state.md R27). -/

namespace Sys2Proof.Machine

/-- The numeric code of a status (R201). -/
def Status.code : Status → Nat
  | .ok => 0
  | .notConnected => 1
  | .handshakeRejected => 2
  | .invalidPayloadLength => 3
  | .invalidFrameLength => 4
  | .outOfRange => 5
  | .timeout => 6
  | .ioError => 7
  | .illegalOperation => 8
  | .alreadyConnected => 9
  | .checksumMismatch => 10

/-- The kinds of error (R201, R202). -/
inductive ErrorKind where
  | usage
  | device
  | transport
  deriving DecidableEq, Repr

/-- The kind column of R201; OK has none. -/
def Status.kind : Status → Option ErrorKind
  | .ok => none
  | .notConnected | .invalidPayloadLength | .invalidFrameLength | .outOfRange
  | .illegalOperation | .alreadyConnected => some .usage
  | .handshakeRejected | .checksumMismatch => some .device
  | .timeout | .ioError => some .transport

/-- `return (OK, v)` (R12). -/
def State.answer (s : State) (v : Result) : State := { s with response := some ⟨.ok, v⟩ }

/-- `raise E`: the operation ends with the status and the empty result (R12, R200). Nothing is saved
and no handler runs. The one shared way in which every error is taken. -/
def State.raise (s : State) (e : Status) : State := { s with response := some ⟨e, .empty⟩ }

end Sys2Proof.Machine
end

