-- ==== Sys2Proof/Machine/Ops.lean ====
section
/-! DEFINITION. The shared operations: the XOR fold, frame and payload builders, the transport and time
primitives of spec/00_scope.md R12, the session's updates, and the host's moves. -/

namespace Sys2Proof.Machine

/-! ## Pure builders -/

/-- xor_fold(B), reduced left to right; 0x00 for the empty sequence (R13, R100). -/
def xorFold (B : List Byte) : Byte := B.foldl (fun acc b => acc ^^^ b) 0x00#8

/-- LOCAL_SUM (R141). -/
def localSum : LocalSum → List Byte → Byte
  | .xorFold, B => xorFold B
  | .other which, B => Config.otherSum which B

/-- build_frame(P, e, q) (R121). -/
def buildFrame (P : List Byte) (e q : Nat) : List Byte :=
  let pre := [Config.marker] ++ P ++ le16 e ++ [BitVec.ofNat 8 q]
  pre ++ [xorFold pre]

/-- `for (i, b) in W: B[i] <- b` (R142). -/
def patchBytes (B : List Byte) (W : List (Nat × Byte)) : List Byte :=
  W.foldl (fun acc w => acc.set w.1 w.2) B

/-- build_param(TPL, K, W) (R142). -/
def buildParam (sum : LocalSum) (tpl : List Byte) (k : Nat) (W : List (Nat × Byte)) : List Byte :=
  let B := patchBytes (Config.classHdr ++ tpl) W
  B ++ [localSum sum (slice B 3 k)] ++ zeros (34 - k)

/-- PROFILE_PATCH(p), for 0 ≤ p < 16 (R8). -/
def profilePatch (c : Config) (p : Int) : List (Nat × Byte) := (c.profilePatch[p.toNat]?).getD []

/-! ## The time source (R12) -/

/-- What `Now()` returns: any integer (spec/92 D4). -/
def Env.nowValue (e : Env) : Int := e.clock.headD (Config.freeNow e.draws)

/-- The other agents after a `Now()`. -/
def Env.afterNow (e : Env) : Env :=
  { e with clock := e.clock.tail, trace := e.trace ++ [.now e.nowValue], draws := e.draws + 1 }

/-! ## The transport (R12) -/

/-- What `TxWrite(B)` returns. A failed write has put a prefix of B on the wire (spec/92 D23). -/
def Env.writeAnswer (e : Env) (B : List Byte) : WriteAnswer :=
  match e.writes.headD (Config.freeWrite e.draws) with
  | .ok => .ok
  | .ioError sent => .ioError (min sent B.length)

/-- The other agents after a `TxWrite(B)`. -/
def Env.afterWrite (e : Env) (B : List Byte) : Env :=
  { e with
    writes := e.writes.tail
    trace := e.trace ++ [.txWrite B (e.writeAnswer B)]
    draws := e.draws + 1 }

/-- What `TxRead(n)` returns: at most n bytes, any bytes, or a failure (R12, R245). -/
def Env.readAnswer (e : Env) (n : Nat) : ReadAnswer :=
  match e.reads.headD (Config.freeRead e.draws) with
  | .ok R => .ok (R.take n)
  | .ioError => .ioError

/-- The other agents after a `TxRead(n)`. -/
def Env.afterRead (e : Env) (n : Nat) : Env :=
  { e with
    reads := e.reads.tail
    trace := e.trace ++ [.txRead n (e.readAnswer n)]
    draws := e.draws + 1 }

/-- The bytes an event put on the wire, in index order, byte 0 first (R43, spec/92 D23). -/
def Event.onWire : Event → List Byte
  | .txWrite B .ok => B
  | .txWrite B (.ioError sent) => B.take sent
  | _ => []

/-- Every byte the codec has put on the wire, in the order in which it left (R43, R47). -/
def Env.wire (e : Env) : List Byte := e.trace.flatMap Event.onWire

/-! ## The session and the primitives on the whole state -/

/-- The epoch as an integer. R24: no operation reads it while it is `none` (log entry 11). -/
def Session.epochValue (S : Session) : Int := S.epoch.getD Config.freeEpoch

/-- A successful CONNECT: `S.epoch <- t`, `S.connected <- true` (R110). -/
def State.openSession (s : State) (t : Int) : State :=
  { s with session := { s.session with connected := true, epoch := some t } }

/-- `S.sequence <- S.sequence + 1` (R122). -/
def State.countFrame (s : State) : State :=
  { s with session := { s.session with sequence := s.session.sequence + 1 } }

/-- The state after a `Now()`. -/
def State.readTime (s : State) : State := { s with env := s.env.afterNow }

/-- The state after a `TxWrite(B)`. -/
def State.txWrite (s : State) (B : List Byte) : State := { s with env := s.env.afterWrite B }

/-- The state after a `TxRead(n)`. -/
def State.txRead (s : State) (n : Nat) : State := { s with env := s.env.afterRead n }

/-- e = (t - S.epoch) mod ELAPSED_MOD, Euclidean (R120, R10, R7). -/
def elapsed (s : State) (t : Int) : Nat := ((t - s.session.epochValue) % 65536).toNat

/-- q = S.sequence mod SEQ_MOD (R120, R7). -/
def seqByte (s : State) : Nat := s.session.sequence % 256

/-- The frame ENCODE and SEND build from a payload in a state: stamped with the time read next and with
the sequence before the increment (R120, R125). -/
def stampFrame (s : State) (P : List Byte) : List Byte :=
  buildFrame P (elapsed s s.env.nowValue) (seqByte s)

/-- The state once that frame is built: the time read once, the sequence counted once (R122, R209). -/
def State.afterStamp (s : State) : State := s.readTime.countFrame

/-- The checks of ENCODE and SEND, in their order (R124): `S.connected`, then the payload's length. -/
def frameCheck (s : State) (P : List Byte) : Option Status :=
  if s.session.connected = false then some .notConnected
  else if P.length ≠ Config.payloadLen then some .invalidPayloadLength
  else none

/-! ## The host's moves -/

/-- The codec takes the host's first move: the rest stay to come (R47). -/
def State.takeMove (s : State) : State := { s with pending := s.pending.tail }

/-- An illegal request ends with IllegalOperation and nothing else happens (R69). -/
def State.illegal (s : State) (_why : Reject) : State := s.raise .illegalOperation

/-- A block reset (R240, R241): the session takes its reset values and the configuration keeps its
own. The transport and the time source are not the codec's; the history marks the reset. DESIGN CHOICE
for the response (log entry 10). -/
def State.blockReset (s : State) : State :=
  { s with
    session := Session.reset
    response := none
    env := { s.env with trace := s.env.trace ++ [.blockReset] } }

end Sys2Proof.Machine
end

