-- ==== Sys2Proof/Machine/Checksum.lean ====
section
/-! DEFINITION. CHECKSUM (spec/40_checksum.md). -/

namespace Sys2Proof.Machine

/-- CHECKSUM B: the XOR fold, for a sequence of any length (R100). -/
def execChecksum (B : List Byte) (s : State) : Host.Outcome State Fault Refusal :=
  .next (s.answer (.byte (xorFold B)))

end Sys2Proof.Machine
end

