-- ==== Sys2Proof/Machine/Connect.lean ====
section
/-! DEFINITION. CONNECT: the handshake (spec/41_session.md). -/

namespace Sys2Proof.Machine

/-- The end of a handshake, once the one reply byte has been asked for (R110): no byte is a Timeout, a
byte other than 0x86 a rejection, and 0x86 opens the session at the time read then (R112). -/
def State.finishHandshake (s : State) : ReadAnswer → State
  | .ioError => s.raise .ioError
  | .ok [] => s.raise .timeout
  | .ok (b :: _) =>
    if b ≠ Config.hsAck then s.raise .handshakeRejected
    else (s.readTime.openSession s.env.nowValue).answer .empty

/-- The handshake: 0x06 goes out, and one byte is read if it went (R110). -/
def State.handshake (s : State) : State :=
  let sent := s.txWrite [Config.hsReq]
  match s.env.writeAnswer [Config.hsReq] with
  | .ioError _ => sent.raise .ioError
  | .ok => (sent.txRead 1).finishHandshake (sent.env.readAnswer 1)

/-- CONNECT (R110); while connected, an error with no traffic (R111). -/
def execConnect (s : State) : Host.Outcome State Fault Refusal :=
  .next (if s.session.connected then s.raise .alreadyConnected else s.handshake)

end Sys2Proof.Machine
end

