-- ==== Sys2Proof/Machine/Encoders.lean ====
section
/-! DEFINITION. The eight command payload encoders (spec/43_command_encoders.md). Each reads its operand
and the configuration only (R140), and checks the domain before any byte is built (R143). -/

namespace Sys2Proof.Machine

/-- A parameterised encoder's end: OutOfRange outside the domain, else the payload (R143). -/
def State.payloadIf (s : State) (inDomain : Bool) (payload : List Byte) : State :=
  if inDomain then s.answer (.bytes payload) else s.raise .outOfRange

/-- The payload of ENC_PROFILE p (R144). -/
def profilePayload (c : Config) (p : Int) : List Byte :=
  buildParam c.localSum c.tplProfile c.kProfile (profilePatch c p)

/-- ENC_PROFILE p (R144). -/
def execEncProfile (p : Int) (s : State) : Host.Outcome State Fault Refusal :=
  .next (s.payloadIf (profileInDomain p) (profilePayload s.config p))

/-- W of ENC_SPEED r: le16(r) at OFF_SPEED and OFF_SPEED + 1 (R145). -/
def speedBytes (c : Config) (r : Int) : List (Nat × Byte) :=
  [(c.offSpeed, BitVec.ofInt 8 (r % 256)), (c.offSpeed + 1, BitVec.ofInt 8 (r / 256))]

/-- The payload of ENC_SPEED r (R145). -/
def speedPayload (c : Config) (r : Int) : List Byte :=
  buildParam c.localSum c.tplSpeed c.kSpeed (speedBytes c r)

/-- ENC_SPEED r (R145). -/
def execEncSpeed (r : Int) (s : State) : Host.Outcome State Fault Refusal :=
  .next (s.payloadIf (rpmInDomain r) (speedPayload s.config r))

/-- The payload of ENC_ACCEL and ENC_DECEL: the operation's byte at OFF_RAMP_OP and the tenths at
OFF_RAMP (R148, R149). -/
def rampPayload (c : Config) (op : Byte) (seconds : Binary64) : List Byte :=
  buildParam c.localSum c.tplRamp c.kRamp
    [(c.offRampOp, op), (c.offRamp, BitVec.ofNat 8 (tenths seconds))]

/-- ENC_ACCEL s (R148). -/
def execEncAccel (seconds : Binary64) (s : State) : Host.Outcome State Fault Refusal :=
  .next (s.payloadIf (rampInDomain seconds) (rampPayload s.config s.config.opAccel seconds))

/-- ENC_DECEL s (R149). -/
def execEncDecel (seconds : Binary64) (s : State) : Host.Outcome State Fault Refusal :=
  .next (s.payloadIf (rampInDomain seconds) (rampPayload s.config s.config.opDecel seconds))

/-- ENC_FWD returns PAYLOAD_FWD (R151). -/
def execEncFwd (s : State) : Host.Outcome State Fault Refusal :=
  .next (s.answer (.bytes s.config.payloadFwd.toList))

/-- ENC_BWD returns PAYLOAD_BWD (R152). -/
def execEncBwd (s : State) : Host.Outcome State Fault Refusal :=
  .next (s.answer (.bytes s.config.payloadBwd.toList))

/-- ENC_STOP returns PAYLOAD_STOP (R153). -/
def execEncStop (s : State) : Host.Outcome State Fault Refusal :=
  .next (s.answer (.bytes s.config.payloadStop.toList))

/-- ENC_QUERY returns PAYLOAD_QUERY (R154). -/
def execEncQuery (s : State) : Host.Outcome State Fault Refusal :=
  .next (s.answer (.bytes s.config.payloadQuery.toList))

end Sys2Proof.Machine
end

