-- ==== Sys2Proof/Machine/Frame.lean ====
section
/-! DEFINITION. ENCODE and SEND (spec/42_frame_codec.md). -/

namespace Sys2Proof.Machine

/-- ENCODE P: the frame is the result, and the transport is not used (R120). -/
def execEncode (P : List Byte) (s : State) : Host.Outcome State Fault Refusal :=
  .next (match frameCheck s P with
    | some e => s.raise e
    | none => s.afterStamp.answer (.bytes (stampFrame s P)))

/-- Transmit a frame and read the reply: write, then read up to 40 bytes if the write went (R125). The
reply is returned as it came, however short (R127); the sequence is never taken back (R126). -/
def State.exchange (s : State) (F : List Byte) : State :=
  let sent := s.txWrite F
  match s.env.writeAnswer F with
  | .ioError _ => sent.raise .ioError
  | .ok =>
    let got := sent.txRead Config.frameLen
    match sent.env.readAnswer Config.frameLen with
    | .ioError => got.raise .ioError
    | .ok R => got.answer (.bytes R)

/-- SEND P: the checks and the frame of ENCODE, then the exchange (R125). -/
def execSend (P : List Byte) (s : State) : Host.Outcome State Fault Refusal :=
  .next (match frameCheck s P with
    | some e => s.raise e
    | none => s.afterStamp.exchange (stampFrame s P))

end Sys2Proof.Machine
end

