-- ==== Sys2Proof/Machine/StatusDecoder.lean ====
section
/-! DEFINITION. DECODE: the inbound frame (spec/44_status_decoder.md). -/

namespace Sys2Proof.Machine

/-- The fields of a 40-byte inbound frame (R65, R180, R181). -/
def rawStatusOf (F : List Byte) : RawStatus where
  counter0 := le32s (slice F 7 11)
  counter1 := le32s (slice F 11 15)
  aux := slice F 15 40

/-- F[39] = xor_fold(F[0..38]), what strict mode asks of a 40-byte frame (R182). -/
def checksumOk (F : List Byte) : Bool := F[39]? == some (xorFold (slice F 0 39))

/-- DECODE F (R180): the length first, then the checksum in strict mode only (R203). The session is
not read (R183). -/
def execDecode (F : List Byte) (s : State) : Host.Outcome State Fault Refusal :=
  .next (
    if F.length ≠ Config.frameLen then s.raise .invalidFrameLength
    else if s.config.decodeMode = .strict ∧ checksumOk F = false then s.raise .checksumMismatch
    else s.answer (.rawStatus (rawStatusOf F)))

end Sys2Proof.Machine
end

