-- ==== Sys2Proof/Machine/Dispatch.lean ====
section
/-! DEFINITION. One arm per operation of spec/30_encoding.md R61. -/

namespace Sys2Proof.Machine

def exec (i : Instr) (s : State) : Host.Outcome State Fault Refusal :=
  match i with
  | .connect => Sys2Proof.Machine.execConnect s
  | .encode payload => Sys2Proof.Machine.execEncode payload s
  | .send payload => Sys2Proof.Machine.execSend payload s
  | .decode frame => Sys2Proof.Machine.execDecode frame s
  | .checksum bytes => Sys2Proof.Machine.execChecksum bytes s
  | .encProfile p => Sys2Proof.Machine.execEncProfile p s
  | .encSpeed r => Sys2Proof.Machine.execEncSpeed r s
  | .encAccel seconds => Sys2Proof.Machine.execEncAccel seconds s
  | .encDecel seconds => Sys2Proof.Machine.execEncDecel seconds s
  | .encFwd => Sys2Proof.Machine.execEncFwd s
  | .encBwd => Sys2Proof.Machine.execEncBwd s
  | .encStop => Sys2Proof.Machine.execEncStop s
  | .encQuery => Sys2Proof.Machine.execEncQuery s

end Sys2Proof.Machine
end

