-- ==== Sys2Proof/Machine/Step.lean ====
section
/-! DEFINITION. One step of the machine: the codec takes the host's next move, whole (spec/00_scope.md
R6, spec/20_memory.md R47). -/

namespace Sys2Proof.Machine

/-- With no move to take, the codec is idle and holds its state (R213). A request runs as its
operation, or ends as illegal (R69). -/
def step (s : State) : Host.Outcome State Fault Refusal :=
  match s.pending with
  | [] => .next s
  | .reset :: _ => .next s.takeMove.blockReset
  | .issue r :: _ =>
    match Sys2Proof.decode r with
    | .ok i => exec i s.takeMove
    | .error why => .next (s.takeMove.illegal why)

/-- The host issues, as its next move, the request whose opcode byte is w, its operand empty (log
entry 3). -/
def State.withFetchWord (s : State) (_nbits w : Nat) : State :=
  { s with pending := .issue (tableRequest w) :: s.pending }

end Sys2Proof.Machine
end

