-- ==== Sys2Proof/Machine/HostProgram.lean ====
section
/-! DEFINITION. The host's side of spec/30_encoding.md R72 and R73: request lines whose results can be
named, and the pseudo-operations, which expand to such lines. Nothing here is part of the codec. -/

namespace Sys2Proof.Machine

/-- The name of a result (R72). -/
abbrev Name := List Char

/-- What a line asks for: an operation with its operand written out, or one whose byte operand is an
earlier result (R72). -/
inductive Call where
  | literal (i : Instr)
  | encodeOf (n : Name)
  | sendOf (n : Name)
  | decodeOf (n : Name)
  | checksumOf (n : Name)
  deriving DecidableEq, Repr

/-- One request line, and the name its result is kept under, if any (R72). -/
structure Line where
  call : Call
  name : Option Name
  deriving DecidableEq, Repr

/-- The pseudo-operations (R73). -/
inductive Pseudo where
  | setSpeed (r : Int)
  | setAccel (seconds : Binary64)
  | setDecel (seconds : Binary64)
  | selectProfile (n : Int)
  | forward
  | backward
  | stop
  | poll
  deriving DecidableEq, Repr

/-- The byte sequence a result offers as a later operand. A CHECKSUM's one byte is a sequence of one
byte (log entry 19). -/
def Result.asBytes : Result → Option (List Byte)
  | .empty => none
  | .byte b => some [b]
  | .bytes bs => some bs
  | .rawStatus _ => none

/-- The results named so far, the latest first. -/
abbrev Names := List (Name × List Byte)

/-- The operation a line asks for, where every name it uses has a value. -/
def Call.resolve (names : Names) : Call → Option Instr
  | .literal i => some i
  | .encodeOf n => (names.lookup n).map Instr.encode
  | .sendOf n => (names.lookup n).map Instr.send
  | .decodeOf n => (names.lookup n).map Instr.decode
  | .checksumOf n => (names.lookup n).map Instr.checksum

/-- The host issues one operation and the codec takes it at once, before any move already waiting. -/
def issue (i : Instr) (s : State) : Host.Outcome State Fault Refusal :=
  step { s with pending := .issue (encode i) :: s.pending }

/-- The names after a line: its result is kept if the line names it and it is a byte sequence. DESIGN
CHOICE, where R72 is silent: a line that gives a name again, and ends with an error or with no bytes,
leaves the name's earlier value in place (log entry 25). -/
def Names.bind (names : Names) (l : Line) (t : State) : Names :=
  match l.name, t.response.bind (fun r => r.result.asBytes) with
  | some n, some bs => (n, bs) :: names
  | _, _ => names

/-- The last request ended with OK. -/
def State.lastOk (s : State) : Bool := (s.response.map Response.status) == some .ok

/-- Issue lines in order (R72), each once the one before has been answered (R244). With `untilError`,
a status other than OK ends the run (R73). A line whose name has no value cannot be issued: no state. -/
def runLines (untilError : Bool) : List Line → Names → State → Option State
  | [], _, s => some s
  | l :: ls, names, s =>
    match l.call.resolve names with
    | none => none
    | some i =>
      match issue i s with
      | .next t =>
        if untilError && !t.lastOk then some t else runLines untilError ls (names.bind l t) t
      | _ => none

/-- A line that keeps its result under a name. -/
def Line.named (c : Call) (n : Name) : Line := { call := c, name := some n }

/-- A line that keeps nothing. -/
def Line.plain (c : Call) : Line := { call := c, name := none }

/-- `<encoder> -> p; SEND p`, the shape of every pseudo-operation but POLL (R73). -/
def encodeAndSend (i : Instr) : List Line :=
  [Line.named (.literal i) ['p'], Line.plain (.sendOf ['p'])]

/-- The lines a pseudo-operation stands for (R73). -/
def Pseudo.expand : Pseudo → List Line
  | .setSpeed r => encodeAndSend (.encSpeed r)
  | .setAccel seconds => encodeAndSend (.encAccel seconds)
  | .setDecel seconds => encodeAndSend (.encDecel seconds)
  | .selectProfile n => encodeAndSend (.encProfile n)
  | .forward => encodeAndSend .encFwd
  | .backward => encodeAndSend .encBwd
  | .stop => encodeAndSend .encStop
  | .poll =>
    [Line.named (.literal .encQuery) ['p'], Line.named (.sendOf ['p']) ['r'],
      Line.plain (.decodeOf ['r'])]

/-- A pseudo-operation: its lines are issued until one ends with a status other than OK (R73). -/
def runPseudo (p : Pseudo) (s : State) : Option State := runLines true p.expand [] s

end Sys2Proof.Machine
end

