-- ==== Sys2Proof/Machine/Assembler.lean ====
section
/-! DEFINITION. The request syntax of spec/30_encoding.md R72, one request per line, and the names of the
pseudo-operations (R73). What R72 leaves open of the notation is in log entry 18. -/

namespace Sys2Proof.Machine

/-- What one line of text says (R72, R73). -/
inductive AsmLine where
  | request (l : Line)
  | pseudo (p : Pseudo)
  deriving DecidableEq, Repr

/-! ## Tokens -/

/-- A character that is a token by itself. -/
def isBracket (c : Char) : Bool := c == '[' || c == ']' || c == '(' || c == ')'

/-- A word, if it has a character. -/
def flush (word : List Char) : List (List Char) := if word.isEmpty then [] else [word]

/-- Words separated by spaces; brackets stand alone; a semicolon begins a comment. `word` holds the
characters of the word being read. -/
def tokens : List Char → List Char → List (List Char)
  | word, [] => flush word
  | word, c :: cs =>
    if c == ';' then flush word
    else if c == ' ' then flush word ++ tokens [] cs
    else if isBracket c then flush word ++ [[c]] ++ tokens [] cs
    else tokens (word ++ [c]) cs

/-! ## Numbers -/

/-- The hexadecimal digits in the order of their values, as R9 writes them. -/
def hexDigits : List Char := "0123456789ABCDEF".toList

/-- The value of a hexadecimal digit: its place among the digits. A small letter counts as its capital
(DESIGN CHOICE, log entry 18). -/
def hexDigit (c : Char) : Option Nat := hexDigits.idxOf? c.toUpper

/-- A byte written as a hexadecimal pair (R9, R72). -/
def hexByte : List Char → Option Byte
  | [hi, lo] =>
    match hexDigit hi, hexDigit lo with
    | some h, some l => some (BitVec.ofNat 8 (16 * h + l))
    | _, _ => none
  | _ => none

/-- The decimal digits of cs appended to the value so far. -/
def decimalDigits : Nat → List Char → Option Nat
  | acc, [] => some acc
  | acc, c :: cs =>
    match hexDigit c with
    | some d => if d < 10 then decimalDigits (10 * acc + d) cs else none
    | none => none

/-- A decimal natural number: at least one digit. -/
def decimalNat (cs : List Char) : Option Nat := if cs.isEmpty then none else decimalDigits 0 cs

/-- A leading sign, and the rest. -/
def signed : List Char → Bool × List Char
  | '-' :: cs => (true, cs)
  | '+' :: cs => (false, cs)
  | cs => (false, cs)

/-- A decimal integer (R72). -/
def decimalInt (cs : List Char) : Option Int :=
  (decimalNat (signed cs).2).map fun n => if (signed cs).1 then -(n : Int) else n

/-- A decimal literal, with or without a fraction: the nearest binary64 value (R72). -/
def decimalReal (cs : List Char) : Option Binary64 :=
  let (neg, body) := signed cs
  let whole := body.takeWhile (fun c => c != '.')
  match body.dropWhile (fun c => c != '.') with
  | [] => (decimalNat whole).map fun n => nearest64 neg n 1
  | _ :: fraction =>
    match decimalNat whole, decimalNat fraction with
    | some _, some _ =>
      (decimalNat (whole ++ fraction)).map fun n => nearest64 neg n (10 ^ fraction.length)
    | _, _ => none

/-! ## Byte lists -/

/-- The inside of a byte list, after its opening bracket (R72): hexadecimal pairs, `zeros(n)` and `++`.
`item` says that an item stands just before, `plus` that a `++` does. Answers the bytes and what
follows the closing bracket. -/
def byteItems : Bool → Bool → List (List Char) → Option (List Byte × List (List Char))
  | _, plus, [']'] :: rest => if plus then none else some ([], rest)
  | item, _, ['+', '+'] :: rest => if item then byteItems false true rest else none
  | _, _, ['z', 'e', 'r', 'o', 's'] :: ['('] :: n :: [')'] :: rest =>
    match decimalNat n, byteItems true false rest with
    | some k, some (bs, after) => some (zeros k ++ bs, after)
    | _, _ => none
  | _, _, pair :: rest =>
    match hexByte pair, byteItems true false rest with
    | some b, some (bs, after) => some (b :: bs, after)
    | _, _ => none
  | _, _, [] => none

/-- A byte operand written out: `[ … ]`, or `zeros(n)` alone, as spec/95 P2 writes it. -/
def byteLiteral : List (List Char) → Option (List Byte × List (List Char))
  | ['['] :: rest => byteItems false false rest
  | ['z', 'e', 'r', 'o', 's'] :: ['('] :: n :: [')'] :: rest =>
    (decimalNat n).map fun k => (zeros k, rest)
  | _ => none

/-! ## Lines -/

/-- The end of a line: nothing, or `-> name` (R72). -/
def lineEnd (c : Call) : List (List Char) → Option AsmLine
  | [] => some (.request { call := c, name := none })
  | [['-', '>'], n] => some (.request { call := c, name := some n })
  | _ => none

/-- A byte operand and the end of the line: bytes written out, or the name of an earlier result. -/
def byteLine (literal : List Byte → Instr) (named : Name → Call) (ts : List (List Char)) :
    Option AsmLine :=
  match byteLiteral ts, ts with
  | some (bs, rest), _ => lineEnd (.literal (literal bs)) rest
  | none, (c :: cs) :: rest => if isBracket c then none else lineEnd (named (c :: cs)) rest
  | none, _ => none

/-- An integer operand and the end of the line. -/
def intLine (op : Int → Instr) : List (List Char) → Option AsmLine
  | n :: rest => (decimalInt n).bind fun v => lineEnd (.literal (op v)) rest
  | [] => none

/-- A real operand and the end of the line. -/
def realLine (op : Binary64 → Instr) : List (List Char) → Option AsmLine
  | x :: rest => (decimalReal x).bind fun v => lineEnd (.literal (op v)) rest
  | [] => none

/-- A pseudo-operation with an integer or a real operand, or with none. -/
def pseudoInt (op : Int → Pseudo) : List (List Char) → Option AsmLine
  | [n] => (decimalInt n).map fun v => .pseudo (op v)
  | _ => none
def pseudoReal (op : Binary64 → Pseudo) : List (List Char) → Option AsmLine
  | [x] => (decimalReal x).map fun v => .pseudo (op v)
  | _ => none
def pseudoPlain (p : Pseudo) : List (List Char) → Option AsmLine
  | [] => some (.pseudo p)
  | _ => none

/-- The mnemonics of R72 and R73, each with how the rest of its line is read. -/
def asmTable : List (String × (List (List Char) → Option AsmLine)) :=
  [("CONNECT", lineEnd (.literal .connect)),
   ("ENCODE", byteLine .encode .encodeOf),
   ("SEND", byteLine .send .sendOf),
   ("DECODE", byteLine .decode .decodeOf),
   ("CHECKSUM", byteLine .checksum .checksumOf)]
  ++ [("ENC_PROFILE", intLine .encProfile),
   ("ENC_SPEED", intLine .encSpeed),
   ("ENC_ACCEL", realLine .encAccel),
   ("ENC_DECEL", realLine .encDecel),
   ("ENC_FWD", lineEnd (.literal .encFwd)),
   ("ENC_BWD", lineEnd (.literal .encBwd)),
   ("ENC_STOP", lineEnd (.literal .encStop)),
   ("ENC_QUERY", lineEnd (.literal .encQuery))]
  ++ [("SET_SPEED", pseudoInt .setSpeed),
   ("SET_ACCEL", pseudoReal .setAccel),
   ("SET_DECEL", pseudoReal .setDecel),
   ("SELECT_PROFILE", pseudoInt .selectProfile),
   ("FORWARD", pseudoPlain .forward),
   ("BACKWARD", pseudoPlain .backward),
   ("STOP", pseudoPlain .stop),
   ("POLL", pseudoPlain .poll)]

/-- One line of a host program as characters (R72, R73), or nothing where it is not of that syntax. -/
def assembleChars (cs : List Char) : Option AsmLine :=
  match tokens [] cs with
  | [] => none
  | m :: rest =>
    match asmTable.find? (fun row => row.1.toList == m) with
    | some row => row.2 rest
    | none => none

/-- One line of a host program (R72, R73). -/
def assemble (text : String) : Option AsmLine := assembleChars text.toList

/-! ## Writing a byte list -/

/-- The hexadecimal digit of d < 16 (R9). -/
def hexChar (d : Nat) : Char := hexDigits.getD d '0'

/-- A byte as a hexadecimal pair (R9). -/
def pairText (b : Byte) : List Char := [hexChar (b.toNat / 16), hexChar (b.toNat % 16)]

/-- Pairs with one space between neighbours. -/
def pairsText : List Byte → List Char
  | [] => []
  | [b] => pairText b
  | b :: bs => pairText b ++ ' ' :: pairsText bs

/-- A byte list as R72 writes it, e.g. `[FF 03 00]`. -/
def bytesText (bs : List Byte) : List Char := '[' :: pairsText bs ++ [']']

/-- The same with a space inside each bracket, which is read by the choice of log entry 18. -/
def spacedBytesText (bs : List Byte) : List Char := ['[', ' '] ++ pairsText bs ++ [' ', ']']

/-- Run one line. A request's result may be named; a pseudo-operation names nothing. -/
def AsmLine.run (names : Names) (s : State) : AsmLine → Option (Names × State)
  | .request l => (runLines false [l] names s).map fun t => (names.bind l t, t)
  | .pseudo p => (runPseudo p s).map fun t => (names, t)

/-- Run a host program: its lines in order, whatever their statuses (R205). -/
def runProgram : List AsmLine → Names → State → Option State
  | [], _, s => some s
  | l :: ls, names, s =>
    match l.run names s with
    | some (names', t) => runProgram ls names' t
    | none => none

end Sys2Proof.Machine
end

