-- ==== Sys2Proof/Safety.lean ====
section
/-! DEFINITION. What holds of every run: the invariants of the session, the configuration and the
history of transport calls, in the terms the statements use. -/

namespace Sys2Proof.Machine

/-- The next state of an outcome, if it is one. -/
def nextOf (o : Host.Outcome State Fault Refusal) : Option State :=
  match o with
  | .next s => some s
  | .fault _ => none
  | .refused _ => none

/-! ## The session (R24, R26) -/

/-- While unconnected, the epoch is none and the sequence 0 (R26); while connected there is an epoch
(R24). -/
def SessionInv (s : State) : Prop :=
  (s.session.connected = false → s.session.epoch = none ∧ s.session.sequence = 0) ∧
  (s.session.connected = true → s.session.epoch.isSome = true)

/-! ## The history since the last block reset -/

/-- The events after the last block reset. -/
def sinceReset (tr : List Event) : List Event :=
  tr.foldl (fun acc e => if e = .blockReset then [] else acc ++ [e]) []

/-- The event is a reading of the time source. -/
def Event.isTimeRead : Event → Bool
  | .now _ => true
  | _ => false

/-- The event is a handshake read that brought the accepting byte (R64). -/
def Event.isAccept : Event → Bool
  | .txRead 1 (.ok (b :: _)) => b == Config.hsAck
  | _ => false

/-- The event is a write of anything but the handshake request. -/
def Event.isFrameWrite : Event → Bool
  | .txWrite B _ => B != [Config.hsReq]
  | _ => false

/-- Since the last reset, time was read once for the epoch and once for each frame counted (R209,
R122). -/
def TimeReadInv (s : State) : Prop :=
  (sinceReset s.env.trace).countP Event.isTimeRead =
    if s.session.connected then s.session.sequence + 1 else 0

/-- The codec is connected exactly when a handshake has been accepted since the last reset (R23). -/
def HandshakeInv (s : State) : Prop :=
  s.session.connected = (sinceReset s.env.trace).any Event.isAccept

/-- No frame is written before a handshake is accepted; a block reset asks for a new handshake (R243).
`open_` says that one has been accepted. -/
def framesGuarded : Bool → List Event → Bool
  | _, [] => true
  | open_, e :: es =>
    if e = .blockReset then framesGuarded false es
    else (open_ || !e.isFrameWrite) && framesGuarded (open_ || e.isAccept) es

/-- A 40-byte outbound frame as R63 and R123 describe it. -/
def FrameShape (F : List Byte) : Prop :=
  F.length = 40 ∧ F[0]? = some 0xFF#8 ∧ F[39]? = some (xorFold (F.take 39)) ∧ xorFold F = 0x00#8

/-- What may stand in the history: a write is the handshake byte or a whole frame, of which a failed
write has sent a prefix; a read asks for 1 or 40 bytes and gets no more. -/
def EventOk : Event → Prop
  | .now _ => True
  | .blockReset => True
  | .txWrite B a => (B = [0x06#8] ∨ FrameShape B) ∧ (∀ n, a = .ioError n → n ≤ B.length)
  | .txRead n a => (n = 1 ∨ n = 40) ∧ (∀ R, a = .ok R → R.length ≤ n)

/-- Every event of the history is one the codec may cause. -/
def TraceInv (s : State) : Prop := ∀ e ∈ s.env.trace, EventOk e

/-- No frame before its handshake, over the whole history, and the session knows of the handshake. -/
def GuardInv (s : State) : Prop :=
  framesGuarded false s.env.trace = true ∧ HandshakeInv s

/-- The configuration meets R8. -/
def ConfigInv (s : State) : Prop := s.config.WellFormed

/-! ## The 8-bit reading of the sequence register (R25) -/

/-- The same state with the sequence register held in 8 bits. -/
def State.narrow (s : State) : State :=
  { s with session := { s.session with sequence := s.session.sequence % 256 } }

/-- The operation reads and writes nothing but its operand, the configuration and the response (R46). -/
def isPure : Instr → Bool
  | .connect | .encode _ | .send _ => false
  | .decode _ | .checksum _ | .encProfile _ | .encSpeed _ | .encAccel _ | .encDecel _
  | .encFwd | .encBwd | .encStop | .encQuery => true

/-- K, the payload index of the local checksum, of a parameterised encoder (R8, R66). -/
def checksumIndex (c : Config) : Instr → Option Nat
  | .encProfile _ => some c.kProfile
  | .encSpeed _ => some c.kSpeed
  | .encAccel _ | .encDecel _ => some c.kRamp
  | .connect | .encode _ | .send _ | .decode _ | .checksum _
  | .encFwd | .encBwd | .encStop | .encQuery => none

/-- The statuses an operation may end with (the "raised by" column of R201). -/
def mayEndWith : Instr → List Status
  | .connect => [.ok, .alreadyConnected, .ioError, .timeout, .handshakeRejected]
  | .encode _ => [.ok, .notConnected, .invalidPayloadLength]
  | .send _ => [.ok, .notConnected, .invalidPayloadLength, .ioError]
  | .decode _ => [.ok, .invalidFrameLength, .checksumMismatch]
  | .encProfile _ | .encSpeed _ | .encAccel _ | .encDecel _ => [.ok, .outOfRange]
  | .checksum _ | .encFwd | .encBwd | .encStop | .encQuery => [.ok]

/-- The encoder a pseudo-operation begins with; POLL's is ENC_QUERY (R73). -/
def pseudoEncoder : Pseudo → Instr
  | .setSpeed r => .encSpeed r
  | .setAccel seconds => .encAccel seconds
  | .setDecel seconds => .encDecel seconds
  | .selectProfile n => .encProfile n
  | .forward => .encFwd
  | .backward => .encBwd
  | .stop => .encStop
  | .poll => .encQuery

/-! ## Words of R72's notation -/

/-- One or more decimal digits. -/
def IsDecimal (cs : List Char) : Prop := cs ≠ [] ∧ ∀ c ∈ cs, c ∈ "0123456789".toList

/-- The number that decimal digits write, the most significant first. -/
def decimalValue (cs : List Char) : Nat := cs.foldl (fun v c => 10 * v + (c.toNat - 48)) 0

/-- A word that can name a result: not empty, and no space, bracket or semicolon in it. -/
def IsName (cs : List Char) : Prop :=
  cs ≠ [] ∧ ∀ c ∈ cs, c ≠ ' ' ∧ c ≠ ';' ∧ isBracket c = false

/-- What may follow a request on its line: nothing, or `-> name` (R72). -/
def IsLineEnd (text : List Char) (name : Option Name) : Prop :=
  (text = [] ∧ name = none) ∨ ∃ m, IsName m ∧ text = " -> ".toList ++ m ∧ name = some m

/-- The lines R72 gives a byte operand, an integer, a real, an earlier result's name, and no operand: how
each begins, and what it asks for. -/
def IsByteLine (start : String) (op : List Byte → Instr) : Prop :=
  (start = "ENCODE " ∧ op = .encode) ∨ (start = "SEND " ∧ op = .send) ∨
  (start = "DECODE " ∧ op = .decode) ∨ (start = "CHECKSUM " ∧ op = .checksum)
def IsIntLine (start : String) (op : Int → Instr) : Prop :=
  (start = "ENC_PROFILE " ∧ op = .encProfile) ∨ (start = "ENC_SPEED " ∧ op = .encSpeed)
def IsRealLine (start : String) (op : Binary64 → Instr) : Prop :=
  (start = "ENC_ACCEL " ∧ op = .encAccel) ∨ (start = "ENC_DECEL " ∧ op = .encDecel)
def IsNamedLine (start : String) (op : Name → Call) : Prop :=
  (start = "ENCODE " ∧ op = .encodeOf) ∨ (start = "SEND " ∧ op = .sendOf) ∨
  (start = "DECODE " ∧ op = .decodeOf) ∨ (start = "CHECKSUM " ∧ op = .checksumOf)
def IsPlainLine (start : String) (i : Instr) : Prop :=
  (start = "CONNECT" ∧ i = .connect) ∨ (start = "ENC_FWD" ∧ i = .encFwd) ∨
  (start = "ENC_BWD" ∧ i = .encBwd) ∨ (start = "ENC_STOP" ∧ i = .encStop) ∨
  (start = "ENC_QUERY" ∧ i = .encQuery)

/-- A part of a byte list between two `++` (R72): hexadecimal pairs, or `zeros(n)` with n in decimal. -/
inductive Piece where
  | pairs (bs : List Byte)
  | zeros (n : List Char)
  deriving DecidableEq, Repr

/-- The text of a part. -/
def pieceText : Piece → List Char
  | .pairs bs => pairsText bs
  | .zeros n => "zeros(".toList ++ n ++ [')']

/-- The bytes a part stands for. -/
def pieceBytes : Piece → List Byte
  | .pairs bs => bs
  | .zeros n => zeros (decimalValue n)

/-- A part that can be written: at least one pair, or a decimal number. -/
def IsPiece : Piece → Prop
  | .pairs bs => bs ≠ []
  | .zeros n => IsDecimal n

/-- Parts with `++` between neighbours. -/
def piecesText : List Piece → List Char
  | [] => []
  | [p] => pieceText p
  | p :: ps => pieceText p ++ " ++ ".toList ++ piecesText ps

end Sys2Proof.Machine
end

