-- ==== Sys2Proof/Certificates/Slice0/Obligations.lean ====
section
/-! DEFINITION. The statements for the provers. Each says which rule of spec/ it formalises; where a clause
is the model's own choice, it says so and names the log entry. -/

open Sys2Proof Sys2Proof.Machine

/-! ## Reset, steps and moves -/

/-- R32: the session and the configuration after reset. -/
def Obligations.ResetSessionAndConfig : Prop :=
  State.reset.session = { connected := false, epoch := none, sequence := 0 } ∧
  State.reset.config = Config.instantiated ∧ State.reset.config.decodeMode = .permissive

/-- The invariants of the statements below hold at reset. Of the session and the configuration: R26, R32, R8.
Of the time reads, the handshake and the writes (R209, R243, R46) because the model's history is empty at
reset, which is the model's choice (log entry 21). -/
def Obligations.ResetMeetsInvariants : Prop :=
  SessionInv State.reset ∧ ConfigInv State.reset ∧ TimeReadInv State.reset ∧
  GuardInv State.reset ∧ TraceInv State.reset

/-- R6, R61: a step on a request that decodes runs that operation on the state whose first move is taken. -/
def Obligations.StepRunsDecodedRequest : Prop :=
  ∀ (s : State) (r : Request) (rest : List HostMove) (i : Instr),
    s.pending = .issue r :: rest → decode r = .ok i →
    step s = exec i { s with pending := rest }

/-- Log entry 3 (the model's own convention): the word that stands for the host's next request is run
as its operation, on the state as it is, by the very next step. -/
def Obligations.PlacedWordRunsNext : Prop :=
  ∀ (s : State) (w : Nat) (i : Instr),
    decodeTableWord 8 w = some i → step (s.withFetchWord 8 w) = exec i s

/-- R213: with no request the codec is idle and holds its whole state. -/
def Obligations.IdleStepHoldsState : Prop :=
  ∀ s : State, s.pending = [] → step s = .next s

/-- R240, R241: a block reset gives the session its reset values and leaves the configuration. That the
response is cleared and the history marked is the model's choice (log entry 10). -/
def Obligations.BlockResetClearsSession : Prop :=
  ∀ (s : State) (rest : List HostMove), s.pending = .reset :: rest →
    step s = .next
      { session := { connected := false, epoch := none, sequence := 0 }
        config := s.config
        pending := rest
        response := none
        env := { s.env with trace := s.env.trace ++ [.blockReset] } }

/-- R69: every opcode outside R61's list ends with IllegalOperation, whatever the operand, and changes
nothing else. -/
def Obligations.UnlistedOpcodeIsIllegal : Prop :=
  ∀ (s : State) (r : Request) (rest : List HostMove), s.pending = .issue r :: rest →
    ((0x05 ≤ r.opc.toNat ∧ r.opc.toNat ≤ 0x0F) ∨ 0x18 ≤ r.opc.toNat) →
    step s = .next { s with pending := rest, response := some ⟨.illegalOperation, .empty⟩ }

/-- R200, R205: no state and no request stops the codec. -/
def Obligations.EveryStepAnswers : Prop :=
  ∀ s : State, ∃ t, step s = .next t

/-! ## Encoding -/

/-- R61: the opcode bytes of the table. That a request has a lane for each operand type, and that an
operation ignores the lanes that are not its own, is the model's choice (log entry 1). -/
def Obligations.OpcodeBytesDecode : Prop :=
  ∀ (B : List Byte) (n : Int) (x : Binary64),
    decode ⟨0x00#8, B, n, x⟩ = .ok .connect ∧
    decode ⟨0x01#8, B, n, x⟩ = .ok (.encode B) ∧
    decode ⟨0x02#8, B, n, x⟩ = .ok (.send B) ∧
    decode ⟨0x03#8, B, n, x⟩ = .ok (.decode B) ∧
    decode ⟨0x04#8, B, n, x⟩ = .ok (.checksum B) ∧
    decode ⟨0x10#8, B, n, x⟩ = .ok (.encProfile n) ∧
    decode ⟨0x11#8, B, n, x⟩ = .ok (.encSpeed n) ∧
    decode ⟨0x12#8, B, n, x⟩ = .ok (.encAccel x) ∧
    decode ⟨0x13#8, B, n, x⟩ = .ok (.encDecel x) ∧
    decode ⟨0x14#8, B, n, x⟩ = .ok .encFwd ∧
    decode ⟨0x15#8, B, n, x⟩ = .ok .encBwd ∧
    decode ⟨0x16#8, B, n, x⟩ = .ok .encStop ∧
    decode ⟨0x17#8, B, n, x⟩ = .ok .encQuery

/-- Decode and encode agree on every operation with every operand (R61, R62). -/
def Obligations.DecodeReadsBackEncode : Prop :=
  ∀ i : Instr, decode (encode i) = .ok i

/-- The other direction: the operation a request decodes to has the request's own opcode (R61). That its
encoding carries on each of the three lanes the request's operand or nothing rests on the lanes, which are
the model's choice (log entry 1). -/
def Obligations.OperationHasOneOpcode : Prop :=
  ∀ (r : Request) (i : Instr), decode r = .ok i →
    (encode i).opc = r.opc ∧
    ((encode i).bytes = r.bytes ∨ (encode i).bytes = []) ∧
    ((encode i).int = r.int ∨ (encode i).int = 0) ∧
    ((encode i).real = r.real ∨ (encode i).real = 0)

/-- R72: for the four operations that take a byte list, the line written for any byte list in R72's own
form is read back as exactly that operation with exactly those bytes, with or without a name for its
result. The form with spaces inside the brackets, and which words are names, are the model's choice (log
entry 18). -/
def Obligations.AssembledByteListsReadBack : Prop :=
  ∀ (bs : List Byte) (text last : List Char) (name : Option Name) (start : String)
    (op : List Byte → Instr),
    (text = bytesText bs ∨ text = spacedBytesText bs) → IsByteLine start op → IsLineEnd last name →
    assembleChars (start.toList ++ text ++ last) =
      some (.request { call := .literal (op bs), name := name })

/-- R72: `zeros(n)` and `++` inside the brackets of a byte list: any parts, each some pairs or a `zeros(n)`
with n in decimal, joined by `++`, stand for their bytes one after the other. Which words are names, and the
spaces around `++`, are the model's choice (log entry 18). -/
def Obligations.AssembledZerosAndConcatenation : Prop :=
  ∀ (ps : List Piece) (last : List Char) (name : Option Name) (start : String)
    (op : List Byte → Instr),
    (∀ p ∈ ps, IsPiece p) → IsByteLine start op → IsLineEnd last name →
    assembleChars (start.toList ++ '[' :: piecesText ps ++ ']' :: last) =
      some (.request { call := .literal (op (ps.flatMap pieceBytes)), name := name })

/-- R72: the integer lines and the real lines, for every decimal number, with or without a sign, a fraction
(of a real) and a name for the result. A decimal literal stands for the nearest binary64 value; which value
a tie gives, the sign, the forms of a literal and which words are names are the model's choice (log entry
18), and the layout of the 64 bits is PRESUMED (log entry 15). -/
def Obligations.AssembledNumbersReadBack : Prop :=
  (∀ (n last : List Char) (name : Option Name) (start : String) (op : Int → Instr),
    IsDecimal n → IsIntLine start op → IsLineEnd last name →
    assembleChars (start.toList ++ n ++ last) =
      some (.request { call := .literal (op (decimalValue n)), name := name }) ∧
    assembleChars (start.toList ++ '-' :: n ++ last) =
      some (.request { call := .literal (op (-(decimalValue n : Int))), name := name })) ∧
  (∀ (whole fraction last : List Char) (name : Option Name) (start : String)
    (op : Binary64 → Instr),
    IsDecimal whole → (fraction = [] ∨ IsDecimal fraction) → IsRealLine start op →
    IsLineEnd last name →
    let text := whole ++ (if fraction = [] then [] else '.' :: fraction)
    let value (neg : Bool) :=
      nearest64 neg (decimalValue (whole ++ fraction)) (10 ^ fraction.length)
    assembleChars (start.toList ++ text ++ last) =
      some (.request { call := .literal (op (value false)), name := name }) ∧
    assembleChars (start.toList ++ '-' :: text ++ last) =
      some (.request { call := .literal (op (value true)), name := name }))

/-- R72: an earlier result's name as an operand, and the lines without an operand, each with or without a
name for its result. Which words are names is the model's choice (log entry 18). -/
def Obligations.AssembledNamesAndPlainLines : Prop :=
  (∀ (n last : List Char) (name : Option Name) (start : String) (op : Name → Call),
    IsName n → IsNamedLine start op → IsLineEnd last name →
    assembleChars (start.toList ++ n ++ last) = some (.request { call := op n, name := name })) ∧
  (∀ (last : List Char) (name : Option Name) (start : String) (i : Instr),
    IsPlainLine start i → IsLineEnd last name →
    assembleChars (start.toList ++ last) =
      some (.request { call := .literal i, name := name }))

/-! ## CHECKSUM -/

/-- R100: the fold of a sequence of any length, from 0x00, left to right; nothing but the response
changes. -/
def Obligations.ChecksumFoldsBytes : Prop :=
  ∀ (s : State) (B : List Byte),
    decode { opc := 0x04#8, bytes := B } = .ok (.checksum B) ∧
    exec (.checksum B) s =
      .next { s with response := some ⟨.ok, .byte (B.foldl (fun acc b => acc ^^^ b) 0x00#8)⟩ }

/-- R102: the laws of xor_fold. -/
def Obligations.XorFoldLaws : Prop :=
  (∀ A B : List Byte, xorFold (A ++ B) = xorFold A ^^^ xorFold B) ∧
  (∀ A : List Byte, xorFold (A ++ [xorFold A]) = 0x00#8) ∧
  (∀ A B : List Byte, A.Perm B → xorFold A = xorFold B) ∧
  (∀ (A : List Byte) (i : Nat) (b b' : Byte), A[i]? = some b →
    xorFold (A.set i b') = xorFold A ^^^ (b ^^^ b') ∧
    (b ≠ b' → xorFold (A.set i b') ≠ xorFold A)) ∧
  (∀ (A : List Byte) (i j : Nat) (b c d : Byte), i ≠ j → A[i]? = some b → A[j]? = some c →
    xorFold ((A.set i (b ^^^ d)).set j (c ^^^ d)) = xorFold A)

/-! ## CONNECT -/

/-- R111: a CONNECT while connected ends with AlreadyConnected; no byte is written or read, and the session
is not changed. -/
def Obligations.ConnectWhileConnectedIsError : Prop :=
  ∀ s : State, s.session.connected = true →
    exec .connect s = .next { s with response := some ⟨.alreadyConnected, .empty⟩ }

/-- R110, R112: the whole effect of a handshake that is accepted. -/
def Obligations.AcceptedHandshakeOpensSession : Prop :=
  ∀ s : State, s.session.connected = false →
    s.env.writeAnswer [0x06#8] = .ok →
    (s.env.afterWrite [0x06#8]).readAnswer 1 = .ok [0x86#8] →
    let asked := (s.env.afterWrite [0x06#8]).afterRead 1
    exec .connect s = .next
      { s with
        session :=
          { connected := true, epoch := some asked.nowValue, sequence := s.session.sequence }
        env := asked.afterNow
        response := some ⟨.ok, .empty⟩ } ∧
    asked.afterNow.trace = s.env.trace ++
      [.txWrite [0x06#8] .ok, .txRead 1 (.ok [0x86#8]), .now asked.nowValue]

/-- R113: the outcomes of CONNECT, row by row. -/
def Obligations.ConnectOutcomeTable : Prop :=
  ∀ s : State,
    (s.session.connected = true →
      exec .connect s = .next { s with response := some ⟨.alreadyConnected, .empty⟩ }) ∧
    (s.session.connected = false →
      let sent := s.env.afterWrite [0x06#8]
      (∀ n, s.env.writeAnswer [0x06#8] = .ioError n →
        exec .connect s = .next { s with env := sent, response := some ⟨.ioError, .empty⟩ }) ∧
      (s.env.writeAnswer [0x06#8] = .ok →
        (sent.readAnswer 1 = .ioError →
          exec .connect s =
            .next { s with env := sent.afterRead 1, response := some ⟨.ioError, .empty⟩ }) ∧
        (sent.readAnswer 1 = .ok [] →
          exec .connect s =
            .next { s with env := sent.afterRead 1, response := some ⟨.timeout, .empty⟩ }) ∧
        (∀ b, sent.readAnswer 1 = .ok [b] → b ≠ 0x86#8 →
          exec .connect s =
            .next { s with env := sent.afterRead 1, response := some ⟨.handshakeRejected, .empty⟩ }) ∧
        (sent.readAnswer 1 = .ok [0x86#8] →
          exec .connect s = .next
            { s with
              session := { s.session with
                connected := true, epoch := some (sent.afterRead 1).nowValue }
              env := (sent.afterRead 1).afterNow
              response := some ⟨.ok, .empty⟩ })))

/-- R112: a CONNECT reads the time once where it succeeds, after the 0x86 byte has been received, and never
where it does not; the value read becomes the epoch. -/
def Obligations.ConnectReadsTimeOnlyOnSuccess : Prop :=
  ∀ (s t : State), exec .connect s = .next t →
    ∃ new r, t.env.trace = s.env.trace ++ new ∧ t.response = some r ∧
      (r.status = .ok → ∃ sofar x, new = sofar ++ [.txRead 1 (.ok [0x86#8]), .now x] ∧
        sofar.countP Event.isTimeRead = 0 ∧ t.session.epoch = some x) ∧
      (r.status ≠ .ok → new.countP Event.isTimeRead = 0)

/-! ## ENCODE and SEND -/

/-- R120, R124: ENCODE, its two errors in their order, and the frame with its effect on the state. -/
def Obligations.EncodeBuildsStampedFrame : Prop :=
  ∀ (s : State) (P : List Byte),
    decode { opc := 0x01#8, bytes := P } = .ok (.encode P) ∧
    (s.session.connected = false →
      exec (.encode P) s = .next { s with response := some ⟨.notConnected, .empty⟩ }) ∧
    (s.session.connected = true → P.length ≠ 35 →
      exec (.encode P) s = .next { s with response := some ⟨.invalidPayloadLength, .empty⟩ }) ∧
    (∀ t0, s.session.connected = true → s.session.epoch = some t0 → P.length = 35 →
      let e := ((s.env.nowValue - t0) % 65536).toNat
      let q := s.session.sequence % 256
      let pre := [0xFF#8] ++ P ++ [BitVec.ofNat 8 (e % 256), BitVec.ofNat 8 (e / 256)] ++
        [BitVec.ofNat 8 q]
      exec (.encode P) s = .next
        { s with
          session := { s.session with sequence := s.session.sequence + 1 }
          env := s.env.afterNow
          response := some ⟨.ok, .bytes (pre ++ [pre.foldl (fun acc b => acc ^^^ b) 0x00#8])⟩ })

/-- R125: SEND, its two errors in their order, and every outcome of the exchange with the transport. -/
def Obligations.SendTransmitsAndReadsReply : Prop :=
  ∀ (s : State) (P : List Byte),
    decode { opc := 0x02#8, bytes := P } = .ok (.send P) ∧
    (s.session.connected = false →
      exec (.send P) s = .next { s with response := some ⟨.notConnected, .empty⟩ }) ∧
    (s.session.connected = true → P.length ≠ 35 →
      exec (.send P) s = .next { s with response := some ⟨.invalidPayloadLength, .empty⟩ }) ∧
    (∀ t0, s.session.connected = true → s.session.epoch = some t0 → P.length = 35 →
      let F := buildFrame P ((s.env.nowValue - t0) % 65536).toNat (s.session.sequence % 256)
      let counted := { s.session with sequence := s.session.sequence + 1 }
      let sent := s.env.afterNow.afterWrite F
      (∀ n, s.env.afterNow.writeAnswer F = .ioError n →
        exec (.send P) s = .next
          { s with session := counted, env := sent, response := some ⟨.ioError, .empty⟩ }) ∧
      (s.env.afterNow.writeAnswer F = .ok →
        (sent.readAnswer 40 = .ioError →
          exec (.send P) s = .next
            { s with
              session := counted, env := sent.afterRead 40
              response := some ⟨.ioError, .empty⟩ }) ∧
        (∀ R, sent.readAnswer 40 = .ok R →
          exec (.send P) s = .next
            { s with
              session := counted, env := sent.afterRead 40
              response := some ⟨.ok, .bytes R⟩ })))

/-- R121: the layout `build_frame` gives (R63), byte for byte. -/
def Obligations.BuildFrameLayout : Prop :=
  ∀ (P : List Byte) (e q : Nat), P.length = 35 → e < 65536 → q < 256 →
    let F := buildFrame P e q
    F.length = 40 ∧ F[0]? = some 0xFF#8 ∧ (∀ i, i < 35 → F[i + 1]? = P[i]?) ∧
    F[36]? = some (BitVec.ofNat 8 (e % 256)) ∧ F[37]? = some (BitVec.ofNat 8 (e / 256)) ∧
    F[38]? = some (BitVec.ofNat 8 q) ∧ F[39]? = some (xorFold (F.take 39))

/-- R123: what holds of every frame that ENCODE or SEND builds. -/
def Obligations.BuiltFramesHaveTheirProperties : Prop :=
  ∀ (s : State) (P : List Byte) (t0 : Int),
    s.session.connected = true → s.session.epoch = some t0 → P.length = 35 →
    ∃ F : List Byte,
      F.length = 40 ∧ F[0]? = some 0xFF#8 ∧ F[39]? = some (xorFold (F.take 39)) ∧
      xorFold F = 0x00#8 ∧ (F.drop 1).take 35 = P ∧
      (((F.getD 36 0).toNat + 256 * (F.getD 37 0).toNat : Nat) : Int) =
        (s.env.nowValue - t0) % 65536 ∧
      (F.getD 38 0).toNat = s.session.sequence % 256 ∧
      (∃ t, exec (.encode P) s = .next t ∧ t.response = some ⟨.ok, .bytes F⟩) ∧
      (∃ t a rest, exec (.send P) s = .next t ∧
        t.env.trace = s.env.trace ++ .now s.env.nowValue :: .txWrite F a :: rest)

/-- R122: the sequence is counted once by an ENCODE or SEND that passes its checks, whatever the transport
then does, and by nothing else. -/
def Obligations.SequenceCountsEachFrameOnce : Prop :=
  ∀ (i : Instr) (s t : State), exec i s = .next t →
    (∀ P, i = .encode P ∨ i = .send P →
      t.session.sequence = s.session.sequence +
        if s.session.connected = true ∧ P.length = 35 then 1 else 0) ∧
    ((∀ P, i ≠ .encode P ∧ i ≠ .send P) → t.session.sequence = s.session.sequence)

/-- R126: a SEND whose write or read fails. The transport is asked once; the wire has a prefix of the
frame after a failed write, and the whole frame after a failed read. -/
def Obligations.FailedSendKeepsItsCount : Prop :=
  ∀ (s : State) (P : List Byte), s.session.connected = true → P.length = 35 →
    let F := stampFrame s P
    (∀ n, s.env.afterNow.writeAnswer F = .ioError n →
      ∃ t, exec (.send P) s = .next t ∧ t.response = some ⟨.ioError, .empty⟩ ∧
        t.session = { s.session with sequence := s.session.sequence + 1 } ∧ n ≤ 40 ∧
        t.env.wire = s.env.wire ++ F.take n ∧
        t.env.trace = s.env.trace ++ [.now s.env.nowValue, .txWrite F (.ioError n)]) ∧
    (s.env.afterNow.writeAnswer F = .ok →
      (s.env.afterNow.afterWrite F).readAnswer 40 = .ioError →
      ∃ t, exec (.send P) s = .next t ∧ t.response = some ⟨.ioError, .empty⟩ ∧
        t.session = { s.session with sequence := s.session.sequence + 1 } ∧
        t.env.wire = s.env.wire ++ F ∧
        t.env.trace =
          s.env.trace ++ [.now s.env.nowValue, .txWrite F .ok, .txRead 40 .ioError])

/-- R127: whatever arrives, 0 to 40 bytes, is the result with status OK; a short one is then rejected by
DECODE. -/
def Obligations.ShortReplyIsReturned : Prop :=
  ∀ (s : State) (P R : List Byte), s.session.connected = true → P.length = 35 →
    s.env.afterNow.writeAnswer (stampFrame s P) = .ok →
    (s.env.afterNow.afterWrite (stampFrame s P)).readAnswer 40 = .ok R →
    R.length ≤ 40 ∧
    ∃ t, exec (.send P) s = .next t ∧ t.response = some ⟨.ok, .bytes R⟩ ∧
      (R.length < 40 → exec (.decode R) t =
        .next { t with response := some ⟨.invalidFrameLength, .empty⟩ })

/-- R128: two frames of one payload, one after the other, by ENCODE and by SEND. -/
def Obligations.ConsecutiveFramesDiffer : Prop :=
  ∀ (s : State) (P : List Byte), s.session.connected = true → P.length = 35 →
    (∃ t u F G, exec (.encode P) s = .next t ∧ t.response = some ⟨.ok, .bytes F⟩ ∧
      exec (.encode P) t = .next u ∧ u.response = some ⟨.ok, .bytes G⟩ ∧
      F.length = 40 ∧ G.length = 40 ∧ F.take 36 = G.take 36 ∧
      (G.getD 38 0).toNat = ((F.getD 38 0).toNat + 1) % 256 ∧
      u.session.sequence = s.session.sequence + 2) ∧
    (∃ t u F G x y a b rest rest', exec (.send P) s = .next t ∧ exec (.send P) t = .next u ∧
      t.env.trace = s.env.trace ++ .now x :: .txWrite F a :: rest ∧
      u.env.trace = t.env.trace ++ .now y :: .txWrite G b :: rest' ∧
      F.length = 40 ∧ G.length = 40 ∧ F.take 36 = G.take 36 ∧
      (G.getD 38 0).toNat = ((F.getD 38 0).toNat + 1) % 256 ∧
      u.session.sequence = s.session.sequence + 2)

/-! ## DECODE -/

/-- R180, R182: DECODE, its errors in their order, and the three fields read from the frame's bytes. -/
def Obligations.DecodeSplitsFrame : Prop :=
  State.reset.config.decodeMode = .permissive ∧
  ∀ (s : State) (F : List Byte),
    let word (k : Nat) : Int :=
      let u := (F.getD k 0).toNat + 256 * (F.getD (k + 1) 0).toNat +
        65536 * (F.getD (k + 2) 0).toNat + 16777216 * (F.getD (k + 3) 0).toNat
      if u < 2 ^ 31 then (u : Int) else (u : Int) - 2 ^ 32
    let checked := F[39]? = some ((F.take 39).foldl (fun acc b => acc ^^^ b) 0x00#8)
    decode { opc := 0x03#8, bytes := F } = .ok (.decode F) ∧
    (F.length ≠ 40 →
      exec (.decode F) s = .next { s with response := some ⟨.invalidFrameLength, .empty⟩ }) ∧
    (F.length = 40 → s.config.decodeMode = .strict → ¬ checked →
      exec (.decode F) s = .next { s with response := some ⟨.checksumMismatch, .empty⟩ }) ∧
    (F.length = 40 → (s.config.decodeMode = .permissive ∨ checked) →
      exec (.decode F) s = .next
        { s with response := some ⟨.ok, .rawStatus ⟨word 7, word 11, F.drop 15⟩⟩ })

/-- R184: the fields of a 40-byte frame give back its bytes 7..39, its bytes 0..6 leave no mark on them, and
strict mode accepts every frame that `build_frame` makes. -/
def Obligations.DecodedFieldsGiveBackFrame : Prop :=
  (∀ (s : State) (F : List Byte), F.length = 40 → s.config.decodeMode = .permissive →
    ∃ r : RawStatus,
      exec (.decode F) s = .next { s with response := some ⟨.ok, .rawStatus r⟩ } ∧
      le32 (r.counter0 % 2 ^ 32).toNat ++ le32 (r.counter1 % 2 ^ 32).toNat ++ r.aux = F.drop 7) ∧
  (∀ (s : State) (P : List Byte) (e q : Nat), s.config.decodeMode = .strict →
    P.length = 35 → e < 65536 → q < 256 →
    ∃ r : RawStatus, exec (.decode (buildFrame P e q)) s =
      .next { s with response := some ⟨.ok, .rawStatus r⟩ }) ∧
  (∀ (s : State) (F G : List Byte), F.length = 40 → G.length = 40 →
    s.config.decodeMode = .permissive → F.drop 7 = G.drop 7 →
    exec (.decode F) s = exec (.decode G) s)

/-! ## The command encoders -/

/-- R142: the parameterised payload, byte for byte. -/
def Obligations.BuildParamLayout : Prop :=
  ∀ (sum : LocalSum) (tpl : List Byte) (k : Nat) (W : List (Nat × Byte)),
    4 ≤ k → k ≤ 34 → tpl.length = k - 3 → (∀ w ∈ W, 3 ≤ w.1 ∧ w.1 ≤ k - 1) →
    (W.map Prod.fst).Nodup →
    let B := buildParam sum tpl k W
    B.length = 35 ∧ B.take 3 = [0x03#8, 0x00#8, 0x01#8] ∧
    (∀ w ∈ W, B[w.1]? = some w.2) ∧
    (∀ i, 3 ≤ i → i < k → i ∉ W.map Prod.fst → B[i]? = tpl[i - 3]?) ∧
    B[k]? = some (localSum sum ((B.take k).drop 3)) ∧
    (∀ i, k < i → i < 35 → B[i]? = some 0x00#8)

/-- R144: ENC_PROFILE on every integer. -/
def Obligations.EncProfilePayload : Prop :=
  ∀ (s : State) (p : Int),
    decode { opc := 0x10#8, int := p } = .ok (.encProfile p) ∧
    (p < 0 ∨ p ≥ 16 →
      exec (.encProfile p) s = .next { s with response := some ⟨.outOfRange, .empty⟩ }) ∧
    (0 ≤ p → p < 16 →
      exec (.encProfile p) s = .next { s with response := some ⟨.ok, .bytes
        (buildParam s.config.localSum s.config.tplProfile s.config.kProfile
          (s.config.profilePatch.toList.getD p.toNat []))⟩ })

/-- R145: ENC_SPEED on every integer; the two bytes of rpm stand at OFF_SPEED and OFF_SPEED + 1. -/
def Obligations.EncSpeedPayload : Prop :=
  ∀ (s : State) (r : Int),
    decode { opc := 0x11#8, int := r } = .ok (.encSpeed r) ∧
    (r < 50 ∨ r > 3000 →
      exec (.encSpeed r) s = .next { s with response := some ⟨.outOfRange, .empty⟩ }) ∧
    (50 ≤ r → r ≤ 3000 →
      let lo := BitVec.ofNat 8 (r.toNat % 256)
      let hi := BitVec.ofNat 8 (r.toNat / 256)
      let B := buildParam s.config.localSum s.config.tplSpeed s.config.kSpeed
        [(s.config.offSpeed, lo), (s.config.offSpeed + 1, hi)]
      exec (.encSpeed r) s = .next { s with response := some ⟨.ok, .bytes B⟩ } ∧
      hi.toNat ≤ 0x0B ∧
      (s.config.WellFormed →
        B[s.config.offSpeed]? = some lo ∧ B[s.config.offSpeed + 1]? = some hi))

/-- R148: ENC_ACCEL on every binary64 value. -/
def Obligations.EncAccelPayload : Prop :=
  ∀ (s : State) (x : Binary64),
    decode { opc := 0x12#8, real := x } = .ok (.encAccel x) ∧
    (rampInDomain x = false →
      exec (.encAccel x) s = .next { s with response := some ⟨.outOfRange, .empty⟩ }) ∧
    (rampInDomain x = true →
      let B := buildParam s.config.localSum s.config.tplRamp s.config.kRamp
        [(s.config.offRampOp, s.config.opAccel), (s.config.offRamp, BitVec.ofNat 8 (tenths x))]
      exec (.encAccel x) s = .next { s with response := some ⟨.ok, .bytes B⟩ } ∧
      (s.config.WellFormed → B[s.config.offRampOp]? = some s.config.opAccel ∧
        ∃ b, B[s.config.offRamp]? = some b ∧ b.toNat = tenths x))

/-- R149: ENC_DECEL on every binary64 value. -/
def Obligations.EncDecelPayload : Prop :=
  ∀ (s : State) (x : Binary64),
    decode { opc := 0x13#8, real := x } = .ok (.encDecel x) ∧
    (rampInDomain x = false →
      exec (.encDecel x) s = .next { s with response := some ⟨.outOfRange, .empty⟩ }) ∧
    (rampInDomain x = true →
      let B := buildParam s.config.localSum s.config.tplRamp s.config.kRamp
        [(s.config.offRampOp, s.config.opDecel), (s.config.offRamp, BitVec.ofNat 8 (tenths x))]
      exec (.encDecel x) s = .next { s with response := some ⟨.ok, .bytes B⟩ } ∧
      (s.config.WellFormed → B[s.config.offRampOp]? = some s.config.opDecel ∧
        ∃ b, B[s.config.offRamp]? = some b ∧ b.toNat = tenths x))

/-- R146: which operands pass the ramp-time check. 0.5 is 0x3FE0000000000000 and 15.0 is
0x402E000000000000; no NaN, infinity, zero or negative value lies between them. The two constants and the
order of bit patterns rest on the bit layout of binary64, which the spec does not give: it is PRESUMED (log
entry 15). -/
def Obligations.RampDomainIsBitRange : Prop :=
  ∀ x : Binary64, rampInDomain x = true ↔
    0x3FE0000000000000 ≤ x.toNat ∧ x.toNat ≤ 0x402E000000000000

/-- R147: the ramp byte's range, its value at every tenth, and the three values between tenths that the rule
gives. -/
def Obligations.TenthsTruncates : Prop :=
  (∀ x : Binary64, rampInDomain x = true → 5 ≤ tenths x ∧ tenths x ≤ 150) ∧
  (∀ k : Nat, 5 ≤ k → k ≤ 150 → tenths (nearest64 false k 10) = k) ∧
  tenths (nearest64 false 55 100) = 5 ∧ tenths (nearest64 false 1499 100) = 149 ∧
  tenths (nearest64 false 2675 1000) = 26

/-- R147, R11: the byte is the rounded product, truncated. It is never below the exact ten-fold value
truncated, and one above it only where the exact value lies within 2^-46 of the next tenth (half the spacing
of binary64 values from 128 to 256), so that the rounding of the product reaches that tenth. And it grows
with the operand: that clause orders operands by their bits, a layout that is PRESUMED (log entry 15). -/
def Obligations.TenthsFollowsExactProduct : Prop :=
  (∀ (x : Binary64) (u : Nat), rampInDomain x = true → view x = .finite false u →
    (tenths x * 2 ^ 1074 ≤ roundUnits (10 * u * oneUnits) oneUnits ∧
      roundUnits (10 * u * oneUnits) oneUnits < (tenths x + 1) * 2 ^ 1074) ∧
    10 * u / 2 ^ 1074 ≤ tenths x ∧ tenths x ≤ 10 * u / 2 ^ 1074 + 1 ∧
    tenths x * 2 ^ 1074 ≤ 10 * u + 2 ^ 1028) ∧
  (∀ x y : Binary64, rampInDomain x = true → rampInDomain y = true → x.toNat ≤ y.toNat →
    tenths x ≤ tenths y)

/-- R150: ENC_ACCEL s against ENC_DECEL s, in the payloads they return. -/
def Obligations.AccelDiffersFromDecel : Prop :=
  ∀ (s : State) (x : Binary64), s.config.WellFormed → s.config.localSum = .xorFold →
    rampInDomain x = true →
    ∃ A D : List Byte,
      exec (.encAccel x) s = .next { s with response := some ⟨.ok, .bytes A⟩ } ∧
      exec (.encDecel x) s = .next { s with response := some ⟨.ok, .bytes D⟩ } ∧
      A.length = 35 ∧ D.length = 35 ∧
      A[s.config.offRampOp]? = some s.config.opAccel ∧
      D[s.config.offRampOp]? = some s.config.opDecel ∧
      A.getD s.config.kRamp 0 ^^^ D.getD s.config.kRamp 0 =
        s.config.opAccel ^^^ s.config.opDecel ∧
      (∀ i, i ≠ s.config.offRampOp → i ≠ s.config.kRamp → A[i]? = D[i]?)

/-- R151, R153, R154, and R152 but for its example of a transmission: the four fixed encoders. -/
def Obligations.FixedEncodersReturnConstants : Prop :=
  ∀ s : State,
    (decode { opc := 0x14#8 } = .ok .encFwd ∧ decode { opc := 0x15#8 } = .ok .encBwd ∧
      decode { opc := 0x16#8 } = .ok .encStop ∧ decode { opc := 0x17#8 } = .ok .encQuery) ∧
    exec .encFwd s =
      .next { s with response := some ⟨.ok, .bytes s.config.payloadFwd.toList⟩ } ∧
    exec .encBwd s =
      .next { s with response := some ⟨.ok, .bytes s.config.payloadBwd.toList⟩ } ∧
    exec .encStop s =
      .next { s with response := some ⟨.ok, .bytes s.config.payloadStop.toList⟩ } ∧
    exec .encQuery s =
      .next { s with response := some ⟨.ok, .bytes s.config.payloadQuery.toList⟩ }

/-- R155: the shape of every parameterised payload, whatever the parameter values; and every encoder's
payload has the length ENCODE and SEND ask for. -/
def Obligations.EncoderPayloadShape : Prop :=
  (∀ (i : Instr) (s : State) (k : Nat), s.config.WellFormed →
    checksumIndex s.config i = some k → i.wellFormed = true →
    ∃ B : List Byte, exec i s = .next { s with response := some ⟨.ok, .bytes B⟩ } ∧
      B.length = 35 ∧ B.take 3 = [0x03#8, 0x00#8, 0x01#8] ∧
      (∀ j, k < j → j ≤ 34 → B[j]? = some 0x00#8)) ∧
  (∀ (i : Instr) (s t : State) (B : List Byte), s.config.WellFormed →
    (checksumIndex s.config i ≠ none ∨ i = .encFwd ∨ i = .encBwd ∨ i = .encStop ∨ i = .encQuery) →
    exec i s = .next t → t.response = some ⟨.ok, .bytes B⟩ → B.length = 35)

/-- R141 with the decided LOCAL_SUM = xor_fold: the body and its local checksum fold to 0x00. -/
def Obligations.LocalChecksumCancels : Prop :=
  ∀ (i : Instr) (s : State) (k : Nat), s.config.WellFormed → s.config.localSum = .xorFold →
    checksumIndex s.config i = some k → i.wellFormed = true →
    ∃ B : List Byte, exec i s = .next { s with response := some ⟨.ok, .bytes B⟩ } ∧
      B[k]? = some (xorFold ((B.take k).drop 3)) ∧ xorFold ((B.take (k + 1)).drop 3) = 0x00#8

/-! ## Rules about the whole machine -/

/-- R23, R24: `connected` is set only by a CONNECT that ends with OK, and never cleared by an operation; the
epoch is written by that CONNECT and by nothing else. -/
def Obligations.OnlyConnectOpensTheSession : Prop :=
  ∀ (i : Instr) (s t : State), exec i s = .next t →
    (s.session.connected = true →
      t.session.connected = true ∧ t.session.epoch = s.session.epoch) ∧
    (s.session.connected = false →
      (t.session.connected = false ∧ t.session.epoch = s.session.epoch) ∨
      (i = .connect ∧ t.session.connected = true ∧ t.response = some ⟨.ok, .empty⟩))

/-- R204: an operation that ends with an error leaves the session as it was, but for a SEND that ends with
IOError; the configuration is never changed. -/
def Obligations.ErrorsLeaveTheSession : Prop :=
  ∀ (i : Instr) (s t : State) (r : Response), exec i s = .next t → t.response = some r →
    t.config = s.config ∧
    (r.status ≠ .ok → t.session = s.session ∨
      (∃ P, i = .send P ∧ r.status = .ioError ∧
        t.session = { s.session with sequence := s.session.sequence + 1 })) ∧
    (∀ P, i = .send P → r.status = .ioError →
      t.session = { s.session with sequence := s.session.sequence + 1 })

/-- R200, R201: every operation answers one status, of those R201 lets it raise; an error's result is
empty. The host's moves to come are left alone. -/
def Obligations.EveryOperationAnswersItsStatuses : Prop :=
  ∀ (i : Instr) (s : State), ∃ t r, exec i s = .next t ∧ t.response = some r ∧
    r.status ∈ mayEndWith i ∧ (r.status ≠ .ok → r.result = .empty) ∧ t.pending = s.pending

/-- R201, R202: the code and the kind of each of the eleven statuses. -/
def Obligations.StatusCodesAndKinds : Prop :=
  ∀ e : Status, (e.code, e.kind) ∈
    [(0, none), (1, some ErrorKind.usage), (2, some .device), (3, some .usage), (4, some .usage),
      (5, some .usage), (6, some .transport), (7, some .transport), (8, some .usage),
      (9, some .usage), (10, some .device)] ∧
    (∀ e' : Status, e.code = e'.code → e = e') ∧
    (e.code = 0 ↔ e = .ok) ∧ (e.code = 1 ↔ e = .notConnected) ∧
    (e.code = 2 ↔ e = .handshakeRejected) ∧ (e.code = 3 ↔ e = .invalidPayloadLength) ∧
    (e.code = 4 ↔ e = .invalidFrameLength) ∧ (e.code = 5 ↔ e = .outOfRange) ∧
    (e.code = 6 ↔ e = .timeout) ∧ (e.code = 7 ↔ e = .ioError) ∧
    (e.code = 8 ↔ e = .illegalOperation) ∧ (e.code = 9 ↔ e = .alreadyConnected) ∧
    (e.code = 10 ↔ e = .checksumMismatch)

/-- R46: which registers an operation writes, and what it asks of the time source and the transport, in
which order. -/
def Obligations.SideEffectTable : Prop :=
  ∀ (i : Instr) (s t : State), exec i s = .next t →
    ∃ new, t.env.trace = s.env.trace ++ new ∧
      match i with
      | .connect => t.session.sequence = s.session.sequence ∧
          (new = [] ∨ (∃ a, new = [.txWrite [0x06#8] a]) ∨
            (∃ a b, new = [.txWrite [0x06#8] a, .txRead 1 b]) ∨
            (∃ a b x, new = [.txWrite [0x06#8] a, .txRead 1 b, .now x]))
      | .encode _ => t.session.connected = s.session.connected ∧
          t.session.epoch = s.session.epoch ∧ (new = [] ∨ ∃ x, new = [.now x])
      | .send _ => t.session.connected = s.session.connected ∧
          t.session.epoch = s.session.epoch ∧
          (new = [] ∨ (∃ x F a, F.length = 40 ∧ new = [.now x, .txWrite F a]) ∨
            (∃ x F a b, F.length = 40 ∧ new = [.now x, .txWrite F a, .txRead 40 b]))
      | _ => t.session = s.session ∧ t.env = s.env

/-- R46, R140, R183: ten operations read only their operand and the configuration. One response, whatever
the session, the transport and the time source; nothing else changes. -/
def Obligations.PureOperationsReadOnlyConfig : Prop :=
  ∀ (i : Instr) (c : Config), isPure i = true →
    ∃ r : Response, ∀ s : State, s.config = c → exec i s = .next { s with response := some r }

/-- R27, R205: no operation depends on the response before it, nor on the host's later moves. -/
def Obligations.NoOutcomePersists : Prop :=
  ∀ (i : Instr) (s t : State) (q : List HostMove) (r : Option Response), exec i s = .next t →
    exec i { s with pending := q, response := r } = .next { t with pending := q }

/-- R12, R209: no step depends on the transport's settings. -/
def Obligations.TransportSettingsAreNeverRead : Prop :=
  ∀ (s t : State) (timeout line : Nat), step s = .next t →
    step { s with config := { s.config with readTimeout := timeout, lineSettings := line } } =
      .next { t with config := { t.config with readTimeout := timeout, lineSettings := line } }

/-- R12: an answer listed for the time source or the transport is the next one given, once; a read brings
at most the bytes asked for and a failed write has sent no more than it was given. The listing is the
model's form of the two agents (log entries 6, 7). -/
def Obligations.AnswersStayWithinTheirLimits : Prop :=
  (∀ (e : Env) (x : Int) (xs : List Int), e.clock = x :: xs →
    e.nowValue = x ∧ e.afterNow.clock = xs) ∧
  (∀ (e : Env) (n : Nat) (R : List Byte) (as : List ReadAnswer), e.reads = .ok R :: as →
    e.readAnswer n = .ok (R.take n) ∧ (e.afterRead n).reads = as) ∧
  (∀ (e : Env) (n : Nat) (as : List ReadAnswer), e.reads = .ioError :: as →
    e.readAnswer n = .ioError ∧ (e.afterRead n).reads = as) ∧
  (∀ (e : Env) (B : List Byte) (as : List WriteAnswer), e.writes = .ok :: as →
    e.writeAnswer B = .ok ∧ (e.afterWrite B).writes = as) ∧
  (∀ (e : Env) (B : List Byte) (k : Nat) (as : List WriteAnswer), e.writes = .ioError k :: as →
    e.writeAnswer B = .ioError (min k B.length) ∧ (e.afterWrite B).writes = as) ∧
  (∀ (e : Env) (n : Nat) (R : List Byte), e.readAnswer n = .ok R → R.length ≤ n) ∧
  (∀ (e : Env) (B : List Byte) (n : Nat), e.writeAnswer B = .ioError n → n ≤ B.length)

/-! ## The host's pseudo-operations -/

/-- R73: a pseudo-operation issues its encoder and, if that ended with OK, a SEND of the payload; POLL then
decodes the reply of a SEND that ended with OK. A status other than OK ends it. -/
def Obligations.PseudoOperationsExpand : Prop :=
  ∀ (p : Pseudo) (s t : State) (r : Response),
    exec (pseudoEncoder p) s = .next t → t.response = some r →
    (r.status ≠ .ok → runPseudo p s = some t) ∧
    (∀ B, r = ⟨.ok, .bytes B⟩ →
      (p ≠ .poll → runPseudo p s = nextOf (exec (.send B) t)) ∧
      (p = .poll → ∀ u q, exec (.send B) t = .next u → u.response = some q →
        (q.status ≠ .ok → runPseudo p s = some u) ∧
        (∀ R, q = ⟨.ok, .bytes R⟩ → runPseudo p s = nextOf (exec (.decode R) u))))

/-! ## Invariants that every step keeps -/

/-- R26, R24: the session's invariant. -/
def Obligations.StepKeepsSessionInv : Prop :=
  ∀ s t : State, SessionInv s → step s = .next t → SessionInv t

/-- R29, R240: no step writes the configuration. -/
def Obligations.StepKeepsConfig : Prop :=
  ∀ s t : State, step s = .next t → t.config = s.config

/-- R209, R122: since the last reset, one time read for the epoch and one for each frame counted. -/
def Obligations.StepKeepsTimeReads : Prop :=
  ∀ s t : State, SessionInv s → TimeReadInv s → step s = .next t → TimeReadInv t

/-- R243: no frame is written before a handshake is accepted, and the session is connected exactly where
one has been, since the last reset. -/
def Obligations.StepKeepsFramesGuarded : Prop :=
  ∀ s t : State, GuardInv s → step s = .next t → GuardInv t

/-- R46, R63, R64: everything the codec ever writes is the handshake byte or one whole well-made frame. -/
def Obligations.StepKeepsWritesWellMade : Prop :=
  ∀ s t : State, TraceInv s → step s = .next t → TraceInv t

/-- R25: held in 8 bits, the sequence register gives the same observations, over runs of any length: two
states that agree but for the count above 255 run to states that agree likewise. -/
def Obligations.NarrowSequenceIsUnobservable : Prop :=
  ∀ (n : Nat) (s u t : State), s.narrow = u.narrow → core.run n s = .next t →
    ∃ v, core.run n u = .next v ∧ t.narrow = v.narrow
end

