-- ==== Sys2Proof/Laws/Assembler.lean ====
section
/-! SUPPORT. How a line is cut into words, and what pairs, digits and brackets are read as: one lemma for
each reading function of Machine/Assembler.lean, cited in place of its definition. -/

namespace Sys2Proof.Machine

/-- A character that stands inside a word. -/
def IsPlain (c : Char) : Prop := c ≠ ' ' ∧ c ≠ ';' ∧ isBracket c = false

/-! ## Words -/

theorem tokens_plain (cs : List Char) (h : ∀ c ∈ cs, IsPlain c) (word rest : List Char) :
    tokens word (cs ++ rest) = tokens (word ++ cs) rest := by
  induction cs generalizing word with
  | nil => simp
  | cons c cs ih =>
    obtain ⟨hs, hc, hb⟩ := h c (by simp)
    simp [tokens, hs, hc, hb, ih (fun d hd => h d (by simp [hd]))]

@[simp] theorem tokens_nil (word : List Char) : tokens word [] = flush word := by simp [tokens]

@[simp] theorem tokens_space (word rest : List Char) :
    tokens word (' ' :: rest) = flush word ++ tokens [] rest := by simp [tokens]

theorem tokens_bracket (c : Char) (h : c = '[' ∨ c = ']' ∨ c = '(' ∨ c = ')')
    (word rest : List Char) :
    tokens word (c :: rest) = flush word ++ [c] :: tokens [] rest := by
  obtain rfl | rfl | rfl | rfl := h <;> simp [tokens, isBracket]

theorem flush_of_ne {word : List Char} (h : word ≠ []) : flush word = [word] := by
  cases word <;> simp_all [flush]

/-- A word, then a space. -/
theorem tokens_word (cs : List Char) (hne : cs ≠ []) (h : ∀ c ∈ cs, IsPlain c) (rest : List Char) :
    tokens [] (cs ++ ' ' :: rest) = cs :: tokens [] rest := by
  simp [tokens_plain cs h, flush_of_ne hne]

/-- A word, then a bracket. -/
theorem tokens_word_bracket (cs : List Char) (hne : cs ≠ []) (h : ∀ c ∈ cs, IsPlain c) (c : Char)
    (hc : c = '[' ∨ c = ']' ∨ c = '(' ∨ c = ')') (rest : List Char) :
    tokens [] (cs ++ c :: rest) = cs :: [c] :: tokens [] rest := by
  simp [tokens_plain cs h, tokens_bracket c hc, flush_of_ne hne]

/-- A word at the end of the line. -/
theorem tokens_last (cs : List Char) (hne : cs ≠ []) (h : ∀ c ∈ cs, IsPlain c) :
    tokens [] cs = [cs] := by
  simpa [flush_of_ne hne] using tokens_plain cs h [] []

/-! ## Digits -/

theorem hexChar_plain : ∀ d < 16, IsPlain (hexChar d) := by unfold IsPlain; decide

theorem hexDigit_hexChar : ∀ d < 16, hexDigit (hexChar d) = some d := by decide

/-- A decimal digit is read as its number. -/
theorem hexDigit_decimal : ∀ c ∈ "0123456789".toList,
    hexDigit c = some (c.toNat - 48) ∧ c.toNat - 48 < 10 ∧ IsPlain c ∧ c ≠ '.' ∧ c ≠ '-' ∧ c ≠ '+' := by
  intro c hc
  simp only [String.reduceToList, List.mem_cons, List.not_mem_nil, or_false] at hc
  rcases hc with rfl | rfl | rfl | rfl | rfl | rfl | rfl | rfl | rfl | rfl <;>
    exact ⟨by decide, by decide, ⟨by decide, by decide, by decide⟩, by decide, by decide, by decide⟩

theorem hexByte_pairText (b : Byte) : hexByte (pairText b) = some b := by
  have h : b.toNat < 256 := b.isLt
  simp only [hexByte, pairText, hexDigit_hexChar _ (by omega : b.toNat / 16 < 16),
    hexDigit_hexChar _ (by omega : b.toNat % 16 < 16)]
  rw [Nat.div_add_mod]; simp

theorem pairText_plain (b : Byte) : ∀ c ∈ pairText b, IsPlain c := by
  have h : b.toNat < 256 := b.isLt
  simp only [pairText, List.mem_cons, List.not_mem_nil, or_false]
  rintro c (rfl | rfl)
  · exact hexChar_plain _ (by omega)
  · exact hexChar_plain _ (by omega)

theorem pairText_ne (b : Byte) : pairText b ≠ [] := by simp [pairText]

/-! ## Numbers -/

theorem decimalDigits_eq (cs : List Char) (h : ∀ c ∈ cs, c ∈ "0123456789".toList) (acc : Nat) :
    decimalDigits acc cs = some (cs.foldl (fun v c => 10 * v + (c.toNat - 48)) acc) := by
  induction cs generalizing acc with
  | nil => simp [decimalDigits]
  | cons c cs ih =>
    obtain ⟨hd, hlt, -⟩ := hexDigit_decimal c (h c (by simp))
    simp [decimalDigits, hd, hlt, ih (fun d hm => h d (by simp [hm]))]

theorem decimalNat_of {cs : List Char} (h : IsDecimal cs) :
    decimalNat cs = some (decimalValue cs) := by
  simp [decimalNat, h.1, decimalDigits_eq cs h.2, decimalValue]

theorem IsDecimal.plain {cs : List Char} (h : IsDecimal cs) : ∀ c ∈ cs, IsPlain c :=
  fun c hc => (hexDigit_decimal c (h.2 c hc)).2.2.1

/-- A decimal number has no sign of its own. -/
theorem signed_decimal {cs : List Char} (h : IsDecimal cs) (rest : List Char) :
    signed (cs ++ rest) = (false, cs ++ rest) := by
  obtain ⟨hne, hd⟩ := h
  cases cs with
  | nil => exact absurd rfl hne
  | cons c cs =>
    obtain ⟨-, -, -, -, hm, hp⟩ := hexDigit_decimal c (hd c (by simp))
    simp only [List.cons_append]
    unfold signed
    split <;> simp_all

theorem decimalInt_of {cs : List Char} (h : IsDecimal cs) :
    decimalInt cs = some (decimalValue cs : Int) ∧
    decimalInt ('-' :: cs) = some (-(decimalValue cs : Int)) := by
  have hs := signed_decimal h []
  simp only [List.append_nil] at hs
  constructor
  · simp [decimalInt, hs, decimalNat_of h]
  · simp [decimalInt, signed, decimalNat_of h]

/-! ## The end of a line -/

theorem IsName.plain {n : List Char} (h : IsName n) : ∀ c ∈ n, IsPlain c := h.2

/-- The words of the end of a line, and what they are read as. -/
theorem lineEnd_of {last : List Char} {name : Option Name} (h : IsLineEnd last name) :
    ∃ ts, tokens [] last = ts ∧ (last = [] ∨ ∃ cs, last = ' ' :: cs ∧ tokens [] cs = ts) ∧
      (∀ c, lineEnd c ts = some (.request { call := c, name := name })) ∧
      (ts = [] ∨ ∃ n, ts = [['-', '>'], n]) := by
  obtain ⟨rfl, rfl⟩ | ⟨m, hm, rfl, rfl⟩ := h
  · exact ⟨[], by simp [flush], .inl rfl, fun c => rfl, .inl rfl⟩
  · have ht : tokens [] (['-', '>'] ++ ' ' :: m) = [['-', '>'], m] := by
      rw [tokens_word _ (by simp) (by simp [IsPlain, isBracket]), tokens_last m hm.1 hm.plain]
    refine ⟨[['-', '>'], m], ?_, .inr ⟨['-', '>'] ++ ' ' :: m, by simp, ht⟩, fun c => rfl, .inr ⟨m, rfl⟩⟩
    have he : " -> ".toList ++ m = ' ' :: (['-', '>'] ++ ' ' :: m) := by simp
    rw [he, tokens_space, ht]; simp [flush]

/-- A word before the end of a line. -/
theorem tokens_word_lineEnd (cs : List Char) (hne : cs ≠ []) (h : ∀ c ∈ cs, IsPlain c)
    {last : List Char} {name : Option Name} (hl : IsLineEnd last name) :
    tokens [] (cs ++ last) = cs :: tokens [] last := by
  obtain ⟨ts, ht, rfl | ⟨ds, rfl, hd⟩, -⟩ := lineEnd_of hl
  · simp [tokens_last cs hne h, flush]
  · rw [tokens_word cs hne h, ht, hd]

end Sys2Proof.Machine
end

