-- ==== Sys2Proof/Laws/State.lean ====
section
/-! SUPPORT. One lemma per field per update of the state, so that no proof unfolds a record update. -/

namespace Sys2Proof.Machine

variable (s : State) (e : Env)

/-! ### answer -/

@[simp] theorem answer_session (v : Result) : (s.answer v).session = s.session := rfl
@[simp] theorem answer_config (v : Result) : (s.answer v).config = s.config := rfl
@[simp] theorem answer_pending (v : Result) : (s.answer v).pending = s.pending := rfl
@[simp] theorem answer_response (v : Result) : (s.answer v).response = some ⟨.ok, v⟩ := rfl
@[simp] theorem answer_env (v : Result) : (s.answer v).env = s.env := rfl

/-! ### raise -/

@[simp] theorem raise_session (e : Status) : (s.raise e).session = s.session := rfl
@[simp] theorem raise_config (e : Status) : (s.raise e).config = s.config := rfl
@[simp] theorem raise_pending (e : Status) : (s.raise e).pending = s.pending := rfl
@[simp] theorem raise_response (e : Status) : (s.raise e).response = some ⟨e, .empty⟩ := rfl
@[simp] theorem raise_env (e : Status) : (s.raise e).env = s.env := rfl

/-! ### illegal -/

@[simp] theorem illegal_session (why : Reject) : (s.illegal why).session = s.session := rfl
@[simp] theorem illegal_config (why : Reject) : (s.illegal why).config = s.config := rfl
@[simp] theorem illegal_pending (why : Reject) : (s.illegal why).pending = s.pending := rfl
@[simp] theorem illegal_response (why : Reject) : (s.illegal why).response = some ⟨.illegalOperation, .empty⟩ := rfl
@[simp] theorem illegal_env (why : Reject) : (s.illegal why).env = s.env := rfl

/-! ### openSession -/

@[simp] theorem openSession_session (t : Int) : (s.openSession t).session = { s.session with connected := true, epoch := some t } := rfl
@[simp] theorem openSession_config (t : Int) : (s.openSession t).config = s.config := rfl
@[simp] theorem openSession_pending (t : Int) : (s.openSession t).pending = s.pending := rfl
@[simp] theorem openSession_response (t : Int) : (s.openSession t).response = s.response := rfl
@[simp] theorem openSession_env (t : Int) : (s.openSession t).env = s.env := rfl

/-! ### countFrame -/

@[simp] theorem countFrame_session : (s.countFrame).session = { s.session with sequence := s.session.sequence + 1 } := rfl
@[simp] theorem countFrame_config : (s.countFrame).config = s.config := rfl
@[simp] theorem countFrame_pending : (s.countFrame).pending = s.pending := rfl
@[simp] theorem countFrame_response : (s.countFrame).response = s.response := rfl
@[simp] theorem countFrame_env : (s.countFrame).env = s.env := rfl

/-! ### readTime -/

@[simp] theorem readTime_session : (s.readTime).session = s.session := rfl
@[simp] theorem readTime_config : (s.readTime).config = s.config := rfl
@[simp] theorem readTime_pending : (s.readTime).pending = s.pending := rfl
@[simp] theorem readTime_response : (s.readTime).response = s.response := rfl
@[simp] theorem readTime_env : (s.readTime).env = s.env.afterNow := rfl

/-! ### txWrite -/

@[simp] theorem txWrite_session (B : List Byte) : (s.txWrite B).session = s.session := rfl
@[simp] theorem txWrite_config (B : List Byte) : (s.txWrite B).config = s.config := rfl
@[simp] theorem txWrite_pending (B : List Byte) : (s.txWrite B).pending = s.pending := rfl
@[simp] theorem txWrite_response (B : List Byte) : (s.txWrite B).response = s.response := rfl
@[simp] theorem txWrite_env (B : List Byte) : (s.txWrite B).env = s.env.afterWrite B := rfl

/-! ### txRead -/

@[simp] theorem txRead_session (n : Nat) : (s.txRead n).session = s.session := rfl
@[simp] theorem txRead_config (n : Nat) : (s.txRead n).config = s.config := rfl
@[simp] theorem txRead_pending (n : Nat) : (s.txRead n).pending = s.pending := rfl
@[simp] theorem txRead_response (n : Nat) : (s.txRead n).response = s.response := rfl
@[simp] theorem txRead_env (n : Nat) : (s.txRead n).env = s.env.afterRead n := rfl

/-! ### afterStamp -/

@[simp] theorem afterStamp_session : (s.afterStamp).session = { s.session with sequence := s.session.sequence + 1 } := rfl
@[simp] theorem afterStamp_config : (s.afterStamp).config = s.config := rfl
@[simp] theorem afterStamp_pending : (s.afterStamp).pending = s.pending := rfl
@[simp] theorem afterStamp_response : (s.afterStamp).response = s.response := rfl
@[simp] theorem afterStamp_env : (s.afterStamp).env = s.env.afterNow := rfl

/-! ### takeMove -/

@[simp] theorem takeMove_session : (s.takeMove).session = s.session := rfl
@[simp] theorem takeMove_config : (s.takeMove).config = s.config := rfl
@[simp] theorem takeMove_pending : (s.takeMove).pending = s.pending.tail := rfl
@[simp] theorem takeMove_response : (s.takeMove).response = s.response := rfl
@[simp] theorem takeMove_env : (s.takeMove).env = s.env := rfl

/-! ### blockReset -/

@[simp] theorem blockReset_session : (s.blockReset).session = Session.reset := rfl
@[simp] theorem blockReset_config : (s.blockReset).config = s.config := rfl
@[simp] theorem blockReset_pending : (s.blockReset).pending = s.pending := rfl
@[simp] theorem blockReset_response : (s.blockReset).response = none := rfl
@[simp] theorem blockReset_env : (s.blockReset).env = { s.env with trace := s.env.trace ++ [.blockReset] } := rfl

/-! ### withFetchWord -/

@[simp] theorem withFetchWord_session (nbits w : Nat) : (s.withFetchWord nbits w).session = s.session := rfl
@[simp] theorem withFetchWord_config (nbits w : Nat) : (s.withFetchWord nbits w).config = s.config := rfl
@[simp] theorem withFetchWord_pending (nbits w : Nat) : (s.withFetchWord nbits w).pending = .issue (tableRequest w) :: s.pending := rfl
@[simp] theorem withFetchWord_response (nbits w : Nat) : (s.withFetchWord nbits w).response = s.response := rfl
@[simp] theorem withFetchWord_env (nbits w : Nat) : (s.withFetchWord nbits w).env = s.env := rfl

/-! ### narrow -/

@[simp] theorem narrow_session : (s.narrow).session = { s.session with sequence := s.session.sequence % 256 } := rfl
@[simp] theorem narrow_config : (s.narrow).config = s.config := rfl
@[simp] theorem narrow_pending : (s.narrow).pending = s.pending := rfl
@[simp] theorem narrow_response : (s.narrow).response = s.response := rfl
@[simp] theorem narrow_env : (s.narrow).env = s.env := rfl

/-! ### afterNow -/

@[simp] theorem afterNow_clock : (e.afterNow).clock = e.clock.tail := rfl
@[simp] theorem afterNow_writes : (e.afterNow).writes = e.writes := rfl
@[simp] theorem afterNow_reads : (e.afterNow).reads = e.reads := rfl
@[simp] theorem afterNow_trace : (e.afterNow).trace = e.trace ++ [.now e.nowValue] := rfl
@[simp] theorem afterNow_draws : (e.afterNow).draws = e.draws + 1 := rfl

/-! ### afterWrite -/

@[simp] theorem afterWrite_clock (B : List Byte) : (e.afterWrite B).clock = e.clock := rfl
@[simp] theorem afterWrite_writes (B : List Byte) : (e.afterWrite B).writes = e.writes.tail := rfl
@[simp] theorem afterWrite_reads (B : List Byte) : (e.afterWrite B).reads = e.reads := rfl
@[simp] theorem afterWrite_trace (B : List Byte) : (e.afterWrite B).trace = e.trace ++ [.txWrite B (e.writeAnswer B)] := rfl
@[simp] theorem afterWrite_draws (B : List Byte) : (e.afterWrite B).draws = e.draws + 1 := rfl

/-! ### afterRead -/

@[simp] theorem afterRead_clock (n : Nat) : (e.afterRead n).clock = e.clock := rfl
@[simp] theorem afterRead_writes (n : Nat) : (e.afterRead n).writes = e.writes := rfl
@[simp] theorem afterRead_reads (n : Nat) : (e.afterRead n).reads = e.reads.tail := rfl
@[simp] theorem afterRead_trace (n : Nat) : (e.afterRead n).trace = e.trace ++ [.txRead n (e.readAnswer n)] := rfl
@[simp] theorem afterRead_draws (n : Nat) : (e.afterRead n).draws = e.draws + 1 := rfl

end Sys2Proof.Machine
end

