-- ==== Sys2Proof/Laws/Ops.lean ====
section
/-! SUPPORT. What each shared operation can do, said once: the builders' lengths and folds, the answers of
the transport, the checks of ENCODE and SEND, and the ends of a handshake and of an exchange. -/

namespace Sys2Proof.Machine

/-! ## The XOR fold -/

theorem foldl_xor_init (B : List Byte) (a : Byte) :
    B.foldl (fun acc b => acc ^^^ b) a = a ^^^ xorFold B := by
  induction B generalizing a with
  | nil => simp [xorFold]
  | cons b B ih =>
    simp only [xorFold, List.foldl_cons] at ih ⊢
    rw [ih, ih (0x00#8 ^^^ b)]
    simp [BitVec.xor_assoc]

@[simp] theorem xorFold_nil : xorFold [] = 0x00#8 := rfl

@[simp] theorem xorFold_cons (b : Byte) (B : List Byte) : xorFold (b :: B) = b ^^^ xorFold B := by
  have h := foldl_xor_init B b
  simpa [xorFold] using h

theorem xorFold_snoc (B : List Byte) (b : Byte) : xorFold (B ++ [b]) = xorFold B ^^^ b := by
  simp [xorFold]

/-! ## The builders -/

@[simp] theorem zeros_length (n : Nat) : (zeros n).length = n := by simp [zeros]

@[simp] theorem le16_length (v : Nat) : (le16 v).length = 2 := rfl

@[simp] theorem slice_length (B : List Byte) (i j : Nat) :
    (slice B i j).length = min (j - i) (B.length - i) := by simp [slice]

@[simp] theorem patchBytes_length (B : List Byte) (W : List (Nat × Byte)) :
    (patchBytes B W).length = B.length := by
  induction W generalizing B with
  | nil => rfl
  | cons w W ih => simpa [patchBytes] using ih (B.set w.1 w.2)

theorem buildFrame_length (P : List Byte) (e q : Nat) (h : P.length = 35) :
    (buildFrame P e q).length = 40 := by simp [buildFrame, h]

theorem buildParam_length (sum : LocalSum) (tpl : List Byte) (k : Nat) (W : List (Nat × Byte))
    (hk : 4 ≤ k ∧ k ≤ 34) (ht : tpl.length = k - 3) : (buildParam sum tpl k W).length = 35 := by
  simp [buildParam, ht]
  omega

/-! ## The answers of the transport -/

theorem readAnswer_length (e : Env) (n : Nat) (R : List Byte) (h : e.readAnswer n = .ok R) :
    R.length ≤ n := by
  unfold Env.readAnswer at h
  split at h
  · cases h
    simp
  · cases h

theorem writeAnswer_sent (e : Env) (B : List Byte) (n : Nat) (h : e.writeAnswer B = .ioError n) :
    n ≤ B.length := by
  unfold Env.writeAnswer at h
  split at h
  · cases h
  · cases h
    exact Nat.min_le_right _ _

/-! ## The checks of ENCODE and SEND -/

/-- The three outcomes of the checks, each with what it says of the state and the payload (R124). -/
theorem frameCheck_cases (s : State) (P : List Byte) :
    (s.session.connected = false ∧ frameCheck s P = some .notConnected) ∨
    (s.session.connected = true ∧ P.length ≠ 35 ∧ frameCheck s P = some .invalidPayloadLength) ∨
    (s.session.connected = true ∧ P.length = 35 ∧ frameCheck s P = none) := by
  unfold frameCheck
  cases hc : s.session.connected <;> by_cases hp : P.length = 35 <;> simp [hp]

theorem frameCheck_none (s : State) (P : List Byte) (hc : s.session.connected = true)
    (hp : P.length = 35) : frameCheck s P = none := by simp [frameCheck, hc, hp]

/-! ## The ends of a handshake (R110) and of an exchange (R125) -/

theorem handshake_cases (s : State) :
    (∃ n, s.env.writeAnswer [Config.hsReq] = .ioError n ∧
      s.handshake = (s.txWrite [Config.hsReq]).raise .ioError) ∨
    (s.env.writeAnswer [Config.hsReq] = .ok ∧
      s.handshake = ((s.txWrite [Config.hsReq]).txRead 1).finishHandshake
        ((s.env.afterWrite [Config.hsReq]).readAnswer 1)) := by
  unfold State.handshake
  cases h : s.env.writeAnswer [Config.hsReq] with
  | ok => exact .inr ⟨rfl, rfl⟩
  | ioError n => exact .inl ⟨n, rfl, rfl⟩

theorem finishHandshake_cases (s : State) (a : ReadAnswer) :
    (a = .ioError ∧ s.finishHandshake a = s.raise .ioError) ∨
    (a = .ok [] ∧ s.finishHandshake a = s.raise .timeout) ∨
    (∃ b R, a = .ok (b :: R) ∧ b ≠ Config.hsAck ∧
      s.finishHandshake a = s.raise .handshakeRejected) ∨
    (∃ R, a = .ok (Config.hsAck :: R) ∧
      s.finishHandshake a = (s.readTime.openSession s.env.nowValue).answer .empty) := by
  match a with
  | .ioError => exact .inl ⟨rfl, rfl⟩
  | .ok [] => exact .inr (.inl ⟨rfl, rfl⟩)
  | .ok (b :: R) =>
    by_cases hb : b = Config.hsAck
    · exact .inr (.inr (.inr ⟨R, by rw [hb], by simp [State.finishHandshake, hb]⟩))
    · exact .inr (.inr (.inl ⟨b, R, rfl, hb, by simp [State.finishHandshake, hb]⟩))

theorem exchange_cases (s : State) (F : List Byte) :
    (∃ n, s.env.writeAnswer F = .ioError n ∧ s.exchange F = (s.txWrite F).raise .ioError) ∨
    (s.env.writeAnswer F = .ok ∧ (s.env.afterWrite F).readAnswer 40 = .ioError ∧
      s.exchange F = ((s.txWrite F).txRead 40).raise .ioError) ∨
    (∃ R, s.env.writeAnswer F = .ok ∧ (s.env.afterWrite F).readAnswer 40 = .ok R ∧
      s.exchange F = ((s.txWrite F).txRead 40).answer (.bytes R)) := by
  unfold State.exchange
  cases hw : s.env.writeAnswer F with
  | ioError n => exact .inl ⟨n, rfl, rfl⟩
  | ok =>
    simp only [txWrite_env]
    cases hr : (s.env.afterWrite F).readAnswer 40 with
    | ioError => exact .inr (.inl ⟨trivial, rfl, rfl⟩)
    | ok R => exact .inr (.inr ⟨R, trivial, rfl, rfl⟩)

/-! ## The moves of a step -/

/-- What a step can do (R6, R69, R213, R240). -/
theorem step_cases (s : State) :
    (s.pending = [] ∧ step s = .next s) ∨
    (∃ rest, s.pending = .reset :: rest ∧ step s = .next s.takeMove.blockReset) ∨
    (∃ r rest i, s.pending = .issue r :: rest ∧ decode r = .ok i ∧ step s = exec i s.takeMove) ∨
    (∃ r rest why, s.pending = .issue r :: rest ∧ decode r = .error why ∧
      step s = .next (s.takeMove.illegal why)) := by
  unfold step
  match s.pending with
  | [] => exact .inl ⟨rfl, rfl⟩
  | .reset :: rest => exact .inr (.inl ⟨rest, rfl, rfl⟩)
  | .issue r :: rest =>
    match h : decode r with
    | .ok i => exact .inr (.inr (.inl ⟨r, rest, i, rfl, h, by simp [h]⟩))
    | .error why => exact .inr (.inr (.inr ⟨r, rest, why, rfl, h, by simp [h]⟩))

end Sys2Proof.Machine
end

