-- ==== Sys2Proof/Laws/Meanings.lean ====
section
/-! SUPPORT. What a handshake, an exchange and a whole operation can do, each said once: if it answers a
next state, then one of these cases holds. -/

namespace Sys2Proof.Machine

/-- A handshake ends with an error after a write, or a write and a read, the session as it was; or it is
accepted, and the time read last is the epoch (R110). -/
theorem handshake_summary (s : State) :
    (∃ new r, s.handshake.env.trace = s.env.trace ++ new ∧ s.handshake.session = s.session ∧
      s.handshake.response = some r ∧ s.handshake.config = s.config ∧
      s.handshake.pending = s.pending ∧
      r.status ∈ [Status.ioError, .timeout, .handshakeRejected] ∧ r.result = .empty ∧
      ((∃ a, new = [.txWrite [0x06#8] a] ∧ (∀ n, a = .ioError n → n ≤ 1)) ∨
       (∃ b, new = [.txWrite [0x06#8] .ok, .txRead 1 b] ∧ b ≠ .ok [0x86#8] ∧
        (∀ R, b = .ok R → R.length ≤ 1)))) ∨
    (∃ x, s.handshake.env.trace =
        s.env.trace ++ [.txWrite [0x06#8] .ok, .txRead 1 (.ok [0x86#8]), .now x] ∧
      s.handshake.session = ⟨true, some x, s.session.sequence⟩ ∧
      s.handshake.response = some ⟨.ok, .empty⟩ ∧ s.handshake.config = s.config ∧
      s.handshake.pending = s.pending) := by
  rcases handshake_cases s with ⟨n, h1, h2⟩ | ⟨h1, h2⟩
  · have := writeAnswer_sent _ _ _ h1
    rw [h2]
    exact .inl ⟨[.txWrite [Config.hsReq] (.ioError n)], _, by simp [h1], rfl, rfl, rfl, rfl,
      by decide, rfl, .inl ⟨_, rfl, by rintro _ ⟨⟩; simpa using this⟩⟩
  · rw [h2]
    clear h2
    have hl := readAnswer_length (s.env.afterWrite [Config.hsReq]) 1
    rcases finishHandshake_cases ((s.txWrite [Config.hsReq]).txRead 1)
        ((s.env.afterWrite [Config.hsReq]).readAnswer 1) with
      ⟨ha, h2⟩ | ⟨ha, h2⟩ | ⟨b, R, ha, hb, h2⟩ | ⟨R, ha, h2⟩
    all_goals rw [h2]; clear h2
    · exact .inl ⟨[.txWrite [Config.hsReq] .ok, .txRead 1 .ioError], _, by simp [h1, ha], rfl, rfl,
        rfl, rfl, by decide, rfl, .inr ⟨_, rfl, by simp, by simp⟩⟩
    · exact .inl ⟨[.txWrite [Config.hsReq] .ok, .txRead 1 (.ok [])], _, by simp [h1, ha], rfl, rfl,
        rfl, rfl, by decide, rfl, .inr ⟨_, rfl, by simp, by simp⟩⟩
    · refine .inl ⟨[.txWrite [Config.hsReq] .ok, .txRead 1 (.ok (b :: R))], _, by simp [h1, ha],
        rfl, rfl, rfl, rfl, by decide, rfl, .inr ⟨_, rfl, ?_, ?_⟩⟩
      · rintro ⟨⟩
        exact hb rfl
      · rintro R' ⟨⟩
        exact hl _ ha
    · have := hl _ ha
      simp at this
      subst this
      exact .inr ⟨((s.txWrite [Config.hsReq]).txRead 1).env.nowValue, by simp [h1, ha], by simp,
        rfl, rfl, rfl⟩

/-- An exchange writes the frame once and reads at most once; it ends with OK, or with IOError and the
empty result; the session is as it was (R125, R126). -/
theorem exchange_summary (s : State) (F : List Byte) :
    ∃ new r, (s.exchange F).env.trace = s.env.trace ++ new ∧ (s.exchange F).session = s.session ∧
      (s.exchange F).config = s.config ∧ (s.exchange F).pending = s.pending ∧
      (s.exchange F).response = some r ∧
      (r.status = .ok ∨ (r.status = .ioError ∧ r.result = .empty)) ∧
      ((∃ a, new = [.txWrite F a] ∧ (∀ n, a = .ioError n → n ≤ F.length)) ∨
       (∃ b, new = [.txWrite F .ok, .txRead 40 b] ∧ (∀ R, b = .ok R → R.length ≤ 40))) := by
  have hl := readAnswer_length (s.env.afterWrite F) 40
  rcases exchange_cases s F with ⟨n, h1, h2⟩ | ⟨h1, h3, h2⟩ | ⟨R, h1, h3, h2⟩ <;> rw [h2]
  · have := writeAnswer_sent _ _ _ h1
    exact ⟨[.txWrite F (.ioError n)], _, by simp [h1], rfl, rfl, rfl, rfl, by simp,
      .inl ⟨_, rfl, by rintro _ ⟨⟩; exact this⟩⟩
  · exact ⟨[.txWrite F .ok, .txRead 40 .ioError], _, by simp [h1, h3], rfl, rfl, rfl, rfl, by simp,
      .inr ⟨_, rfl, by simp⟩⟩
  · exact ⟨[.txWrite F .ok, .txRead 40 (.ok R)], _, by simp [h1, h3], rfl, rfl, rfl, rfl, by simp,
      .inr ⟨_, rfl, by rintro R ⟨⟩; exact hl _ h3⟩⟩

/-- What an operation can do: change the response only; or run a handshake; or build a frame and
return it, or exchange it. -/
theorem exec_cases (i : Instr) (s t : State) (h : exec i s = .next t) :
    (∃ r, t = { s with response := some r } ∧ r.status ∈ mayEndWith i ∧
      (r.status ≠ .ok → r.result = .empty) ∧ (i = .connect → r.status ≠ .ok) ∧
      (∀ P, i = .send P → r.status ≠ .ioError)) ∨
    (i = .connect ∧ s.session.connected = false ∧ t = s.handshake) ∨
    (∃ P, i = .encode P ∧ s.session.connected = true ∧ P.length = 35 ∧
      t = s.afterStamp.answer (.bytes (stampFrame s P))) ∨
    (∃ P, i = .send P ∧ s.session.connected = true ∧ P.length = 35 ∧
      t = s.afterStamp.exchange (stampFrame s P)) := by
  cases i with
  | connect =>
    simp only [exec, execConnect, Host.Outcome.next.injEq] at h
    cases hc : s.session.connected <;> rw [hc] at h
    · exact .inr (.inl ⟨rfl, rfl, h.symm⟩)
    · exact .inl ⟨_, h.symm, by simp [mayEndWith], by simp, by simp, by simp⟩
  | encode P =>
    rcases frameCheck_cases s P with ⟨h1, h2⟩ | ⟨h1, h3, h2⟩ | ⟨h1, h3, h2⟩
    all_goals simp only [exec, execEncode, h2, Host.Outcome.next.injEq] at h
    · exact .inl ⟨_, h.symm, by simp [mayEndWith], by simp, by simp, by simp⟩
    · exact .inl ⟨_, h.symm, by simp [mayEndWith], by simp, by simp, by simp⟩
    · exact .inr (.inr (.inl ⟨P, rfl, h1, h3, h.symm⟩))
  | send P =>
    rcases frameCheck_cases s P with ⟨h1, h2⟩ | ⟨h1, h3, h2⟩ | ⟨h1, h3, h2⟩
    all_goals simp only [exec, execSend, h2, Host.Outcome.next.injEq] at h
    · exact .inl ⟨_, h.symm, by simp [mayEndWith], by simp, by simp, by simp⟩
    · exact .inl ⟨_, h.symm, by simp [mayEndWith], by simp, by simp, by simp⟩
    · exact .inr (.inr (.inr ⟨P, rfl, h1, h3, h.symm⟩))
  | decode F =>
    simp only [exec, execDecode, Host.Outcome.next.injEq] at h
    left
    split at h
    · exact ⟨_, h.symm, by simp [mayEndWith], by simp, by simp, by simp⟩
    · split at h <;> exact ⟨_, h.symm, by simp [mayEndWith], by simp, by simp, by simp⟩
  | encProfile _ | encSpeed _ | encAccel _ | encDecel _ =>
    simp only [exec, execEncProfile, execEncSpeed, execEncAccel, execEncDecel, State.payloadIf,
      Host.Outcome.next.injEq] at h
    left
    split at h <;> exact ⟨_, h.symm, by simp [mayEndWith], by simp, by simp, by simp⟩
  | checksum _ | encFwd | encBwd | encStop | encQuery =>
    simp only [exec, execChecksum, execEncFwd, execEncBwd, execEncStop, execEncQuery,
      Host.Outcome.next.injEq] at h
    exact .inl ⟨_, h.symm, by simp [mayEndWith], by simp, by simp, by simp⟩

end Sys2Proof.Machine
end

