-- ==== Sys2Proof/Laws/PerInstr.lean ====
section
/-! SUPPORT. Families of facts about every operation as syntax, one lemma per constructor. -/

namespace Sys2Proof.Laws.OpcodeRow

/-- The opcode of an operation stands in R61's table beside its mnemonic. -/
def Statement (i : Instr) : Prop := opcodeTable.lookup (encode i).opc = some i.mnemonic

theorem connect : Statement .connect := rfl
theorem encode (payload : List Byte) : Statement (.encode payload) := rfl
theorem send (payload : List Byte) : Statement (.send payload) := rfl
theorem decode (frame : List Byte) : Statement (.decode frame) := rfl
theorem checksum (bytes : List Byte) : Statement (.checksum bytes) := rfl
theorem encProfile (p : Int) : Statement (.encProfile p) := rfl
theorem encSpeed (r : Int) : Statement (.encSpeed r) := rfl
theorem encAccel (seconds : Binary64) : Statement (.encAccel seconds) := rfl
theorem encDecel (seconds : Binary64) : Statement (.encDecel seconds) := rfl
theorem encFwd : Statement .encFwd := rfl
theorem encBwd : Statement .encBwd := rfl
theorem encStop : Statement .encStop := rfl
theorem encQuery : Statement .encQuery := rfl

end Sys2Proof.Laws.OpcodeRow
end

