-- ==== Sys2Proof/Tests/Slice0.lean ====
section
/-! SUPPORT. Tests whose expected results come from the spec's own vectors (spec/95_test_vectors.md), and for
every statement with hypotheses a concrete state and operands that meet them. -/

namespace Sys2Proof.Tests

open Sys2Proof.Machine

/-! ## The states of the tests -/

/-- The TEST INSTANTIATION of spec/95, which is not the device's. -/
def testConfig : Config where
  payloadFwd := Vector.replicate 35 0x0F
  payloadBwd := Vector.replicate 35 0x0B
  payloadStop := Vector.replicate 35 0x05
  payloadQuery := Vector.replicate 35 0x0A
  kProfile := 9
  kSpeed := 8
  kRamp := 8
  tplProfile := [0x30, 0, 0, 0, 0, 0]
  tplSpeed := [0x10, 0, 0, 0, 0]
  tplRamp := [0x20, 0, 0, 0, 0]
  offSpeed := 5
  offRamp := 4
  offRampOp := 3
  opAccel := 0x20
  opDecel := 0x21
  profilePatch := Vector.ofFn fun p =>
    [(4, BitVec.ofNat 8 p.val), (6, BitVec.ofNat 8 (0x80 + p.val))]
  localSum := .xorFold
  decodeMode := .permissive
  readTimeout := 0
  lineSettings := 0

/-- S = (false, none, 0) under the test instantiation, with answers listed for the other agents. -/
def fresh (clock : List Int) (writes : List WriteAnswer) (reads : List ReadAnswer) : State where
  session := { connected := false, epoch := none, sequence := 0 }
  config := testConfig
  pending := []
  response := none
  env := { clock := clock, writes := writes, reads := reads, trace := [], draws := 0 }

/-- S = (true, epoch, sequence), the next time read being `now`. -/
def live (epoch : Int) (sequence : Nat) (now : Int) (writes : List WriteAnswer)
    (reads : List ReadAnswer) : State :=
  { fresh [now] writes reads with
    session := { connected := true, epoch := some epoch, sequence := sequence } }

/-- The same in strict mode. -/
def strict (s : State) : State := { s with config := { s.config with decodeMode := .strict } }

/-- The session, the status and the result after an operation. -/
def after (i : Instr) (s : State) : Option (Session × Option Response) :=
  (nextOf (exec i s)).map fun t => (t.session, t.response)

/-- The bytes on the wire after an operation. -/
def wireAfter (i : Instr) (s : State) : Option (List Byte) :=
  (nextOf (exec i s)).map fun t => t.env.wire

/-- The status after an operation. -/
def statusAfter (i : Instr) (s : State) : Option Status :=
  (nextOf (exec i s)).bind fun t => t.response.map Response.status

/-! ## WellFormed refuses -/

/-- The check of R8 on an instantiation, as a Bool. -/
def accepts (c : Config) : Bool := decide c.WellFormed

theorem test_config_ok : accepts testConfig = true ∧ accepts Config.fallback = true := by decide
theorem test_k_bounds : ∀ k ∈ [3, 35],
    accepts { testConfig with kProfile := k, tplProfile := zeros (k - 3) } = false ∧
    accepts { testConfig with kSpeed := k, tplSpeed := zeros (k - 3) } = false ∧
    accepts { testConfig with kRamp := k, tplRamp := zeros (k - 3) } = false := by decide
theorem test_template_lengths :
    accepts { testConfig with tplProfile := zeros 5 } = false ∧
    accepts { testConfig with tplSpeed := zeros 6 } = false ∧
    accepts { testConfig with tplRamp := zeros 4 } = false := by decide
theorem test_offset_bounds :
    accepts { testConfig with offSpeed := 2 } = false ∧
    accepts { testConfig with offSpeed := 7 } = false ∧
    accepts { testConfig with offRamp := 2 } = false ∧
    accepts { testConfig with offRamp := 8 } = false ∧
    accepts { testConfig with offRampOp := 2 } = false ∧
    accepts { testConfig with offRampOp := 8 } = false := by decide
theorem test_ramp_bytes_equal : accepts { testConfig with offRamp := 3 } = false ∧
    accepts { testConfig with opDecel := 0x20 } = false := by decide
theorem test_patch_indices :
    accepts { testConfig with profilePatch := Vector.replicate 16 [(2, 0)] } = false ∧
    accepts { testConfig with profilePatch := Vector.replicate 16 [(9, 0)] } = false ∧
    accepts { testConfig with profilePatch := Vector.replicate 16 [(4, 0), (4, 1)] } = false := by
  decide
theorem test_operands_outside : (Instr.encode (zeros 34)).wellFormed = false ∧
    (Instr.send (zeros 36)).wellFormed = false ∧ (Instr.decode (zeros 39)).wellFormed = false ∧
    (Instr.encProfile 16).wellFormed = false ∧ (Instr.encSpeed 49).wellFormed = false := by decide
theorem test_reals_outside : (Instr.encAccel 0x402E000000000001#64).wellFormed = false ∧
    (Instr.encDecel 0x7FF8000000000000#64).wellFormed = false := by decide +kernel

/-! ## Decoding: words written out bit by bit from R61 -/

theorem test_decode_group0 :
    decode { opc := 0b00000000#8 } = .ok .connect ∧
    decode { opc := 0b00000001#8, bytes := [1] } = .ok (.encode [1]) ∧
    decode { opc := 0b00000010#8, bytes := [2] } = .ok (.send [2]) ∧
    decode { opc := 0b00000011#8, bytes := [3] } = .ok (.decode [3]) ∧
    decode { opc := 0b00000100#8, bytes := [4] } = .ok (.checksum [4]) := by decide
theorem test_decode_group1 :
    decode { opc := 0b00010000#8, int := 5 } = .ok (.encProfile 5) ∧
    decode { opc := 0b00010001#8, int := -6 } = .ok (.encSpeed (-6)) ∧
    decode { opc := 0b00010010#8, real := 7 } = .ok (.encAccel 7) ∧
    decode { opc := 0b00010011#8, real := 8 } = .ok (.encDecel 8) ∧
    decode { opc := 0b00010100#8 } = .ok .encFwd ∧
    decode { opc := 0b00010101#8 } = .ok .encBwd ∧
    decode { opc := 0b00010110#8 } = .ok .encStop ∧
    decode { opc := 0b00010111#8 } = .ok .encQuery := by decide
theorem test_decode_illegal : ∀ opc ∈ [0x05#8, 0x0F#8, 0x18#8, 0xFF#8],
    decode { opc := opc } = .error (.illegalOperation opc) := by decide
theorem test_table_word : decodeTableWord 8 0x11 = some (.encSpeed 0) ∧
    decodeTableWord 8 0x01 = some (.encode []) ∧ decodeTableWord 8 0x20 = none := by decide

/-! ## CHECKSUM (spec/95 2.1) -/

theorem test_checksum : after (.checksum [0xFF, 0x03, 0x00, 0x01]) (fresh [] [] []) =
    some (⟨false, none, 0⟩, some ⟨.ok, .byte 0xFD⟩) := by decide
theorem test_checksum_empty : after (.checksum []) (fresh [] [] []) =
    some (⟨false, none, 0⟩, some ⟨.ok, .byte 0x00⟩) := by decide

/-! ## CONNECT (spec/95 2.2) -/

theorem test_connect : after .connect (fresh [1000] [.ok] [.ok [0x86]]) =
    some (⟨true, some 1000, 0⟩, some ⟨.ok, .empty⟩) := by decide
theorem test_connect_rejects_echo : after .connect (fresh [1000] [.ok] [.ok [0x06]]) =
    some (⟨false, none, 0⟩, some ⟨.handshakeRejected, .empty⟩) := by decide

/-! ## ENCODE and SEND (spec/95 2.3, 2.4) -/

theorem test_encode : after (.encode ([0x03, 0x00, 0x01] ++ zeros 32)) (live 1000 5 5660 [] []) =
    some (⟨true, some 1000, 6⟩, some ⟨.ok, .bytes
      ([0xFF, 0x03, 0x00, 0x01] ++ zeros 32 ++ [0x34, 0x12, 0x05, 0xDE])⟩) := by decide
theorem test_encode_negative_and_wrap : after (.encode (zeros 35)) (live 0 256 (-1) [] []) =
    some (⟨true, some 0, 257⟩, some ⟨.ok, .bytes
      ([0xFF] ++ zeros 35 ++ [0xFF, 0xFF, 0x00, 0xFF])⟩) := by decide
theorem test_send_write_fails : after (.send (zeros 35)) (live 100 7 1100 [.ioError 3] []) =
      some (⟨true, some 100, 8⟩, some ⟨.ioError, .empty⟩) ∧
    wireAfter (.send (zeros 35)) (live 100 7 1100 [.ioError 3] []) =
      some [0xFF, 0x00, 0x00] := by decide
theorem test_send_short_reply :
    after (.send (zeros 35)) (live 100 8 1200 [.ok] [.ok (zeros 12)]) =
      some (⟨true, some 100, 9⟩, some ⟨.ok, .bytes (zeros 12)⟩) ∧
    wireAfter (.send (zeros 35)) (live 100 8 1200 [.ok] [.ok (zeros 12)]) =
      some ([0xFF] ++ zeros 35 ++ [0x4C, 0x04, 0x08, 0xBF]) := by decide

/-! ## DECODE (spec/95 2.5) -/

/-- F_A but for its byte 39. -/
def frameA : List Byte :=
  [0xFF, 0, 0, 0, 0, 0, 0, 0x78, 0x56, 0x34, 0x12, 0x88, 0xA9, 0xCB, 0xED]
  ++ (List.range 24).map (fun k => BitVec.ofNat 8 (0x20 + k))

theorem test_decode_strict : after (.decode (frameA ++ [0xF0])) (strict (fresh [] [] [])) =
    some (⟨false, none, 0⟩, some ⟨.ok, .rawStatus
      ⟨305419896, -305419896, slice (frameA ++ [0xF0]) 15 40⟩⟩) := by decide
theorem test_decode_strict_mismatch :
    statusAfter (.decode (frameA ++ [0xF1])) (strict (fresh [] [] [])) =
      some .checksumMismatch := by decide

/-! ## The encoders (spec/95 2.6, under the test instantiation) -/

theorem test_speed : after (.encSpeed 3000) (fresh [] [] []) = some (⟨false, none, 0⟩, some ⟨.ok,
    .bytes ([0x03, 0x00, 0x01, 0x10, 0x00, 0xB8, 0x0B, 0x00, 0xA3] ++ zeros 26)⟩) := by decide
theorem test_speed_out_of_range : ∀ r ∈ [49, 3001, 0, -50, 66536],
    statusAfter (.encSpeed r) (fresh [] [] []) = some .outOfRange := by decide
theorem test_profile : after (.encProfile 15) (fresh [] [] []) = some (⟨false, none, 0⟩, some ⟨.ok,
    .bytes ([0x03, 0x00, 0x01, 0x30, 0x0F, 0x00, 0x8F, 0x00, 0x00, 0xB0] ++ zeros 25)⟩) := by decide
theorem test_profile_out_of_range : ∀ p ∈ [-1, 16, 1000],
    statusAfter (.encProfile p) (fresh [] [] []) = some .outOfRange := by decide
/-- 0.55 truncates to 5 tenths. -/
theorem test_accel : after (.encAccel 0x3FE199999999999A#64) (fresh [] [] []) =
    some (⟨false, none, 0⟩, some ⟨.ok,
      .bytes ([0x03, 0x00, 0x01, 0x20, 0x05, 0x00, 0x00, 0x00, 0x25] ++ zeros 26)⟩) := by
  decide +kernel
/-- Just below 0.5, just above 15.0, 0.0, −0.0, NaN, +∞ and −∞. -/
theorem test_accel_out_of_range :
    [0x3FDFFFFFFFFFFFFF#64, 0x402E000000000001#64, 0#64, 0x8000000000000000#64,
      0x7FF8000000000000#64, 0x7FF0000000000000#64, 0xFFF0000000000000#64].map
        (fun x => statusAfter (.encAccel x) (fresh [] [] [])) =
      List.replicate 7 (some .outOfRange) := by decide +kernel
/-- 14.99 truncates to 149 tenths (spec/95 P3). -/
theorem test_decel : after (.encDecel 0x402DFAE147AE147B#64) (fresh [] [] []) =
    some (⟨false, none, 0⟩, some ⟨.ok,
      .bytes ([0x03, 0x00, 0x01, 0x21, 0x95, 0x00, 0x00, 0x00, 0xB4] ++ zeros 26)⟩) := by
  decide +kernel
theorem test_decel_bounds : [0x3FE0000000000000#64, 0x402E000000000000#64].map
    (fun x => statusAfter (.encDecel x) (fresh [] [] [])) = [some .ok, some .ok] := by
  decide +kernel
theorem test_fwd : after .encFwd (fresh [] [] []) =
    some (⟨false, none, 0⟩, some ⟨.ok, .bytes (List.replicate 35 0x0F)⟩) := by decide
theorem test_bwd : after .encBwd (fresh [] [] []) =
    some (⟨false, none, 0⟩, some ⟨.ok, .bytes (List.replicate 35 0x0B)⟩) := by decide
theorem test_stop : after .encStop (fresh [] [] []) =
    some (⟨false, none, 0⟩, some ⟨.ok, .bytes (List.replicate 35 0x05)⟩) := by decide
theorem test_query : after .encQuery (fresh [] [] []) =
    some (⟨false, none, 0⟩, some ⟨.ok, .bytes (List.replicate 35 0x0A)⟩) := by decide

/-! ## binary64 (spec/95 2.6): the bits are those of the decimal literals, from outside the model -/

theorem test_nearest : nearest64 false 55 100 = 0x3FE199999999999A#64 ∧
    nearest64 false 1499 100 = 0x402DFAE147AE147B#64 ∧
    nearest64 false 49999999999999994 (10 ^ 17) = 0x3FDFFFFFFFFFFFFF#64 ∧
    nearest64 true 0 1 = 0x8000000000000000#64 := by decide +kernel
theorem test_tenths : tenths 0x3FE6666666666666#64 = 7 ∧ tenths 0x3FE1EB851EB851EC#64 = 5 ∧
    tenths 0x4005666666666666#64 = 26 := by decide +kernel

/-! ## Lines of text (R72) and codes (R201) -/

theorem test_assemble_bytes :
    assemble "SEND [FF 03 ++ zeros(2)] -> q" = some (.request
      { call := .literal (.send [0xFF, 0x03, 0x00, 0x00]), name := some ['q'] }) ∧
    assemble "CHECKSUM [FF 03 00]" = some (.request
      { call := .literal (.checksum [0xFF, 0x03, 0x00]), name := none }) ∧
    bytesText [0xFF, 0x03, 0x00] = "[FF 03 00]".toList := by decide +kernel
theorem test_assemble_operands :
    assemble "ENC_SPEED 1500 -> p ; comment" = some (.request
      { call := .literal (.encSpeed 1500), name := some ['p'] }) ∧
    assemble "ENC_ACCEL 0.55" = some (.request
      { call := .literal (.encAccel 0x3FE199999999999A#64), name := none }) ∧
    assemble "DECODE R" = some (.request { call := .decodeOf ['R'], name := none }) ∧
    assemble "SET_SPEED 1500" = some (.pseudo (.setSpeed 1500)) ∧
    assemble "SEND [FF" = none ∧ assemble "ENC_SPEED" = none := by decide +kernel
theorem test_status_codes : Status.outOfRange.code = 5 ∧ Status.checksumMismatch.code = 10 ∧
    Status.timeout.kind = some .transport := by decide

/-! ## Witnesses: a state and operands that meet the hypotheses of each statement -/

/-- The host has one move to come. -/
def moving (m : HostMove) : State := { fresh [1000] [.ok] [.ok [0x86]] with pending := [m] }

/-- Connected, with the history of its handshake, and a SEND to come. -/
def connectedOnce : State :=
  { live 0 0 250 [.ok] [.ok (zeros 40)] with
    pending := [.issue { opc := 0x02, bytes := zeros 35 }]
    env := { clock := [250], writes := [.ok], reads := [.ok (zeros 40)], draws := 3,
             trace := [.txWrite [0x06] .ok, .txRead 1 (.ok [0x86]), .now 0] } }

theorem witness_StepRunsDecodedRequest :
    (moving (.issue { opc := 0x04, bytes := [1] })).pending =
      .issue { opc := 0x04, bytes := [1] } :: [] ∧
    decode { opc := 0x04, bytes := [1] } = .ok (.checksum [1]) := by decide
theorem witness_PlacedWordRunsNext : decodeTableWord 8 0x17 = some .encQuery := by decide
theorem witness_IdleStepHoldsState : (live 0 7 1 [] []).pending = [] := by decide
theorem witness_BlockResetClearsSession : (moving .reset).pending = .reset :: [] := by decide
theorem witness_UnlistedOpcodeIsIllegal : ∀ opc ∈ [0x05#8, 0x0F#8, 0x18#8, 0xFF#8],
    (moving (.issue { opc := opc })).pending = .issue { opc := opc } :: [] ∧
    ((0x05 ≤ opc.toNat ∧ opc.toNat ≤ 0x0F) ∨ 0x18 ≤ opc.toNat) := by decide
theorem witness_OperationHasOneOpcode :
    decode { opc := 0x10, bytes := [1], int := 2, real := 3 } = .ok (.encProfile 2) := by decide
theorem witness_LineEnds : IsName ['p'] ∧ IsLineEnd [] none ∧
    IsLineEnd " -> p".toList (some ['p']) :=
  ⟨by simp [IsName, isBracket], .inl ⟨rfl, rfl⟩,
    .inr ⟨['p'], by simp [IsName, isBracket], by simp, rfl⟩⟩
theorem witness_AssembledByteLists : IsByteLine "CHECKSUM " .checksum ∧
    "[FF 03 00]".toList = bytesText [0xFF, 0x03, 0x00] ∧
    "[ FF ]".toList = spacedBytesText [0xFF] ∧ "[]".toList = bytesText [] ∧
    IsLineEnd [] none :=
  ⟨.inr (.inr (.inr ⟨rfl, rfl⟩)), by decide +kernel, by decide +kernel, by decide +kernel,
    .inl ⟨rfl, rfl⟩⟩
theorem witness_AssembledZeros : IsByteLine "SEND " .send ∧
    (∀ p ∈ [Piece.pairs [0xFF], .zeros ['0'], .zeros ['3', '2']], IsPiece p) ∧
    IsLineEnd [] none := by
  refine ⟨.inr (.inl ⟨rfl, rfl⟩), ?_, .inl ⟨rfl, rfl⟩⟩
  simp [IsPiece, IsDecimal]
theorem witness_AssembledNumbers : IsDecimal ['1', '5', '0', '0'] ∧ IsDecimal ['0'] ∧
    IsIntLine "ENC_SPEED " .encSpeed ∧ IsRealLine "ENC_ACCEL " .encAccel ∧
    IsLineEnd [] none :=
  ⟨by simp [IsDecimal], by simp [IsDecimal], .inr ⟨rfl, rfl⟩, .inl ⟨rfl, rfl⟩, .inl ⟨rfl, rfl⟩⟩
theorem witness_AssembledNames : IsName ['p'] ∧ IsNamedLine "DECODE " .decodeOf ∧
    IsPlainLine "CONNECT" .connect ∧ IsLineEnd [] none :=
  ⟨by simp [IsName, isBracket], .inr (.inr (.inl ⟨rfl, rfl⟩)), .inl ⟨rfl, rfl⟩, .inl ⟨rfl, rfl⟩⟩
theorem witness_XorFoldLaws : [1#8, 2#8].Perm [2#8, 1#8] ∧ [1#8, 2#8][1]? = some 2#8 ∧
    (2#8 ≠ 3#8) ∧ [1#8, 2#8][0]? = some 1#8 ∧ (0 : Nat) ≠ 1 := by decide
theorem witness_ConnectWhileConnected : (live 0 7 1 [] []).session.connected = true := by decide
theorem witness_AcceptedHandshake : let s := fresh [1000] [.ok] [.ok [0x86]]
    s.session.connected = false ∧ s.env.writeAnswer [0x06] = .ok ∧
    (s.env.afterWrite [0x06]).readAnswer 1 = .ok [0x86] := by decide
theorem witness_ConnectOutcomeTable :
    (fresh [] [.ioError 1] []).env.writeAnswer [0x06] = .ioError 1 ∧
    (fresh [] [.ok] []).env.writeAnswer [0x06] = .ok ∧
    ((fresh [] [.ok] [.ioError]).env.afterWrite [0x06]).readAnswer 1 = .ioError ∧
    ((fresh [] [.ok] [.ok []]).env.afterWrite [0x06]).readAnswer 1 = .ok [] ∧
    ((fresh [] [.ok] [.ok [0x06]]).env.afterWrite [0x06]).readAnswer 1 = .ok [0x06] ∧
    (0x06#8 ≠ 0x86#8) ∧
    ((fresh [] [.ok] [.ok [0x86]]).env.afterWrite [0x06]).readAnswer 1 = .ok [0x86] := by decide
theorem witness_ConnectReadsTime : ∃ t, exec .connect (fresh [1] [.ok] [.ok [0x86]]) = .next t :=
  ⟨_, rfl⟩
theorem witness_EncodeBuildsStampedFrame : (fresh [] [] []).session.connected = false ∧
    (live 5 3 9 [] []).session.connected = true ∧ (zeros 34).length ≠ 35 ∧
    (zeros 36).length ≠ 35 ∧ (live 5 3 9 [] []).session.epoch = some 5 ∧
    (zeros 35).length = 35 := by decide
theorem witness_SendTransmits : let F := buildFrame (zeros 35) 4 3
    (live 5 3 9 [.ioError 2] []).env.afterNow.writeAnswer F = .ioError 2 ∧
    (live 5 3 9 [.ok] [.ioError]).env.afterNow.writeAnswer F = .ok ∧
    ((live 5 3 9 [.ok] [.ioError]).env.afterNow.afterWrite F).readAnswer 40 = .ioError ∧
    ((live 5 3 9 [.ok] [.ok [7]]).env.afterNow.afterWrite F).readAnswer 40 = .ok [7] := by decide
theorem witness_BuildFrameLayout : (zeros 35).length = 35 ∧ 65535 < 65536 ∧ 255 < 256 := by decide
theorem witness_BuiltFrames : (live 5 256 4 [] []).session.connected = true ∧
    (live 5 256 4 [] []).session.epoch = some 5 ∧ (zeros 35).length = 35 := by decide
theorem witness_SequenceCounts : (∃ t, exec (.send (zeros 35)) (live 0 0 1 [.ok] []) = .next t) ∧
    (∃ t, exec .encFwd (fresh [] [] []) = .next t) ∧
    (∀ P, Instr.encFwd ≠ .encode P ∧ Instr.encFwd ≠ .send P) :=
  ⟨⟨_, rfl⟩, ⟨_, rfl⟩, fun _ => ⟨by simp, by simp⟩⟩
theorem witness_FailedSend : let s := live 100 7 1100 [.ioError 40] []
    let u := live 100 7 1100 [.ok] [.ioError]
    s.session.connected = true ∧ u.session.connected = true ∧ (zeros 35).length = 35 ∧
    s.env.afterNow.writeAnswer (stampFrame s (zeros 35)) = .ioError 40 ∧
    u.env.afterNow.writeAnswer (stampFrame u (zeros 35)) = .ok ∧
    (u.env.afterNow.afterWrite (stampFrame u (zeros 35))).readAnswer 40 = .ioError := by decide
theorem witness_ShortReply : let s := live 100 8 1200 [.ok] [.ok (zeros 39)]
    s.session.connected = true ∧ (zeros 35).length = 35 ∧
    s.env.afterNow.writeAnswer (stampFrame s (zeros 35)) = .ok ∧
    (s.env.afterNow.afterWrite (stampFrame s (zeros 35))).readAnswer 40 = .ok (zeros 39) ∧
    (zeros 39).length < 40 := by decide
theorem witness_ConsecutiveFrames : (live 0 255 1 [] []).session.connected = true ∧
    (zeros 35).length = 35 := by decide
theorem witness_DecodeSplitsFrame : (zeros 39).length ≠ 40 ∧ (zeros 41).length ≠ 40 ∧
    (zeros 40).length = 40 ∧ (strict (fresh [] [] [])).config.decodeMode = .strict ∧
    ¬ ((frameA ++ [0xF1])[39]? =
      some (((frameA ++ [0xF1]).take 39).foldl (fun acc b => acc ^^^ b) 0x00#8)) ∧
    (frameA ++ [0xF0])[39]? =
      some (((frameA ++ [0xF0]).take 39).foldl (fun acc b => acc ^^^ b) 0x00#8) ∧
    (fresh [] [] []).config.decodeMode = .permissive := by decide
theorem witness_DecodedFields : (frameA ++ [0xF0]).length = 40 ∧
    (frameA ++ [0xF0]).drop 7 = ([0x00] ++ (frameA ++ [0xF0]).drop 1).drop 7 ∧
    ([0x00#8] ++ (frameA ++ [0xF0]).drop 1).length = 40 ∧
    (fresh [] [] []).config.decodeMode = .permissive ∧
    (strict (fresh [] [] [])).config.decodeMode = .strict ∧ (zeros 35).length = 35 := by decide
theorem witness_BuildParamLayout : ∀ k ∈ [4, 34], 4 ≤ k ∧ k ≤ 34 ∧
    (zeros (k - 3)).length = k - 3 ∧ (∀ w ∈ [(3, 9#8)], 3 ≤ w.1 ∧ w.1 ≤ k - 1) ∧
    ([(3, 9#8)].map Prod.fst).Nodup := by decide
theorem witness_EncProfile : ((-1 : Int) < 0 ∨ (-1 : Int) ≥ 16) ∧
    ((16 : Int) < 0 ∨ (16 : Int) ≥ 16) ∧ ((0 : Int) ≤ 0 ∧ (0 : Int) < 16) ∧
    ((0 : Int) ≤ 15 ∧ (15 : Int) < 16) := by decide
theorem witness_EncSpeed : ((49 : Int) < 50 ∨ (49 : Int) > 3000) ∧
    ((3001 : Int) < 50 ∨ (3001 : Int) > 3000) ∧ ((50 : Int) ≤ 50 ∧ (50 : Int) ≤ 3000) ∧
    ((50 : Int) ≤ 3000 ∧ (3000 : Int) ≤ 3000) ∧ testConfig.WellFormed := by decide
theorem witness_RampOperands : rampInDomain 0x3FDFFFFFFFFFFFFF#64 = false ∧
    rampInDomain 0x3FE0000000000000#64 = true ∧ rampInDomain 0x402E000000000000#64 = true ∧
    rampInDomain 0x402E000000000001#64 = false ∧ testConfig.WellFormed ∧
    testConfig.localSum = .xorFold := by decide +kernel
theorem witness_TenthsFollows : rampInDomain 0x3FE0000000000000#64 = true ∧
    rampInDomain 0x402E000000000000#64 = true ∧
    view 0x3FE0000000000000#64 = .finite false (2 ^ 1073) ∧
    view 0x402E000000000000#64 = .finite false (15 * 2 ^ 1074) ∧
    (0x3FE0000000000000#64).toNat ≤ (0x402E000000000000#64).toNat := by decide +kernel
theorem witness_EncoderPayloads : testConfig.WellFormed ∧
    checksumIndex testConfig (.encProfile 15) = some 9 ∧ (Instr.encProfile 15).wellFormed = true ∧
    checksumIndex testConfig (.encSpeed 50) = some 8 ∧ (Instr.encSpeed 50).wellFormed = true ∧
    checksumIndex testConfig (.encAccel 0x4000000000000000) = some 8 ∧
    (Instr.encAccel 0x4000000000000000).wellFormed = true ∧
    checksumIndex testConfig (.encDecel 0x4000000000000000) = some 8 ∧
    testConfig.localSum = .xorFold := by decide +kernel
theorem witness_EncoderPayloadLength : ∃ t, exec .encFwd (fresh [] [] []) = .next t ∧
    t.response = some ⟨.ok, .bytes (List.replicate 35 0x0F)⟩ := ⟨_, rfl, by decide⟩
theorem witness_OnlyConnectOpens :
    (∃ t, exec .connect (fresh [1] [.ok] [.ok [0x86]]) = .next t) ∧
    (fresh [1] [.ok] [.ok [0x86]]).session.connected = false ∧
    (∃ t, exec .connect (live 0 0 1 [] []) = .next t) ∧
    (live 0 0 1 [] []).session.connected = true := ⟨⟨_, rfl⟩, rfl, ⟨_, rfl⟩, rfl⟩
theorem witness_ErrorsLeaveTheSession : ∃ t r,
    exec (.send (zeros 35)) (live 0 0 1 [.ioError 0] []) = .next t ∧ t.response = some r ∧
    r.status = .ioError ∧ r.status ≠ .ok := ⟨_, ⟨.ioError, .empty⟩, rfl, by decide, rfl, by decide⟩
theorem witness_SideEffectTable :
    ∃ t, exec (.send (zeros 35)) (live 0 0 1 [.ok] [.ok []]) = .next t := ⟨_, rfl⟩
theorem witness_PureOperations : isPure (.decode (zeros 40)) = true ∧
    (live 0 0 1 [] []).config = (fresh [] [] []).config := by decide
theorem witness_NoOutcomePersists :
    ∃ t, exec (.encode (zeros 35)) (live 0 0 1 [] []) = .next t := ⟨_, rfl⟩
theorem witness_TransportSettings : ∃ t, step connectedOnce = .next t := ⟨_, rfl⟩
theorem witness_AnswersStayWithin : (fresh [4] [] []).env.clock = 4 :: [] ∧
    (fresh [] [] [.ok [1, 2]]).env.reads = .ok [1, 2] :: [] ∧
    (fresh [] [] [.ioError]).env.reads = .ioError :: [] ∧
    (fresh [] [.ok] []).env.writes = .ok :: [] ∧
    (fresh [] [.ioError 9] []).env.writes = .ioError 9 :: [] ∧
    (fresh [] [] [.ok [1, 2]]).env.readAnswer 1 = .ok [1] ∧
    (fresh [] [.ioError 9] []).env.writeAnswer [1] = .ioError 1 := by decide
theorem witness_PseudoOutOfRange : ∃ t,
    exec (pseudoEncoder (.setSpeed 49)) (fresh [] [] []) = .next t ∧
    t.response = some ⟨.outOfRange, .empty⟩ := ⟨_, rfl, by decide⟩
theorem witness_PseudoSends : ∃ t B,
    exec (pseudoEncoder (.setSpeed 1500)) (live 0 0 1 [.ok] [.ok [7]]) = .next t ∧
    t.response = some ⟨.ok, .bytes B⟩ ∧ Pseudo.setSpeed 1500 ≠ .poll :=
  ⟨_, _, rfl, rfl, by decide⟩
theorem witness_PseudoSendsForward : ∃ t B,
    exec (pseudoEncoder .forward) (live 0 0 1 [.ok] [.ok [7]]) = .next t ∧
    t.response = some ⟨.ok, .bytes B⟩ ∧ Pseudo.forward ≠ .poll := ⟨_, _, rfl, rfl, by decide⟩
theorem witness_PseudoPoll : ∃ t u B,
    exec (pseudoEncoder .poll) (live 0 0 1 [.ok] [.ok [7]]) = .next t ∧
    t.response = some ⟨.ok, .bytes B⟩ ∧ exec (.send B) t = .next u ∧
    u.response = some ⟨.ok, .bytes [7]⟩ := ⟨_, _, _, rfl, rfl, rfl, by decide⟩
theorem witness_PseudoPollFails : ∃ t u B,
    exec (pseudoEncoder .poll) (fresh [] [] []) = .next t ∧
    t.response = some ⟨.ok, .bytes B⟩ ∧ exec (.send B) t = .next u ∧
    u.response = some ⟨.notConnected, .empty⟩ := ⟨_, _, _, rfl, rfl, rfl, by decide⟩
theorem witness_StepKeepsSessionInv : SessionInv connectedOnce ∧
    ∃ t, step connectedOnce = .next t := ⟨⟨by decide, by decide⟩, ⟨_, rfl⟩⟩
theorem witness_StepKeepsTimeReads : SessionInv connectedOnce ∧ TimeReadInv connectedOnce ∧
    ∃ t, step connectedOnce = .next t := ⟨⟨by decide, by decide⟩, by unfold TimeReadInv; decide, ⟨_, rfl⟩⟩
theorem witness_StepKeepsFramesGuarded : GuardInv connectedOnce ∧
    ∃ t, step connectedOnce = .next t := ⟨⟨by decide, by unfold HandshakeInv; decide⟩, ⟨_, rfl⟩⟩
theorem witness_StepKeepsWritesWellMade : TraceInv connectedOnce ∧
    ∃ t, step connectedOnce = .next t := by
  refine ⟨?_, ⟨_, rfl⟩⟩
  simp [TraceInv, connectedOnce, EventOk]
theorem witness_NarrowSequence : (live 0 0 1 [] []).narrow = (live 0 256 1 [] []).narrow ∧
    ∃ t, core.run 2 (live 0 0 1 [] []) = .next t := ⟨by decide, ⟨_, rfl⟩⟩

end Sys2Proof.Tests
end

section
/-! SUPPORT. What a step does on each of the host's moves, one equation per case (R6, R69, R213, R240),
and O3. -/

namespace Sys2Proof.Machine

variable {s : State} {rest : List HostMove}

theorem takeMove_of_pending {m : HostMove} (h : s.pending = m :: rest) :
    s.takeMove = { s with pending := rest } := by simp [State.takeMove, h]

theorem step_of_idle (h : s.pending = []) : step s = .next s := by simp [step, h]

theorem step_of_reset (h : s.pending = .reset :: rest) :
    step s = .next s.takeMove.blockReset := by simp [step, h]

theorem step_of_issue {r : Request} {i : Instr} (h : s.pending = .issue r :: rest)
    (hd : decode r = .ok i) : step s = exec i s.takeMove := by simp [step, h, hd]

theorem step_of_illegal {r : Request} {why : Reject} (h : s.pending = .issue r :: rest)
    (hd : decode r = .error why) : step s = .next (s.takeMove.illegal why) := by simp [step, h, hd]

/-- Settles O3: the equation of `step` for a request that decodes, with the taken move written out. -/
theorem stepRunsDecodedRequest : Obligations.StepRunsDecodedRequest := by
  intro s r rest i hp hd
  rw [step_of_issue hp hd, takeMove_of_pending hp]

end Sys2Proof.Machine
end

section
/-! SUPPORT. What the time source and the transport answer from their lists (R12, log entries 6 and 7),
and O52. -/

namespace Sys2Proof.Machine

variable {e : Env}

theorem nowValue_of_listed {x : Int} {xs : List Int} (h : e.clock = x :: xs) : e.nowValue = x := by
  simp [Env.nowValue, h]

theorem readAnswer_of_listed_ok {R : List Byte} {as : List ReadAnswer} (h : e.reads = .ok R :: as)
    (n : Nat) : e.readAnswer n = .ok (R.take n) := by simp [Env.readAnswer, h]

theorem readAnswer_of_listed_ioError {as : List ReadAnswer} (h : e.reads = .ioError :: as)
    (n : Nat) : e.readAnswer n = .ioError := by simp [Env.readAnswer, h]

theorem writeAnswer_of_listed_ok {as : List WriteAnswer} (h : e.writes = .ok :: as)
    (B : List Byte) : e.writeAnswer B = .ok := by simp [Env.writeAnswer, h]

theorem writeAnswer_of_listed_ioError {k : Nat} {as : List WriteAnswer}
    (h : e.writes = .ioError k :: as) (B : List Byte) :
    e.writeAnswer B = .ioError (min k B.length) := by simp [Env.writeAnswer, h]

/-- Settles O52: a listed answer is the one given and its list loses its head; the two limits hold of
every answer, listed or free. -/
theorem answersStayWithinTheirLimits : Obligations.AnswersStayWithinTheirLimits := by
  refine ⟨?time, ?read, ?readFails, ?write, ?writeFails, readAnswer_length, writeAnswer_sent⟩
  case time => exact fun e x xs h => ⟨nowValue_of_listed h, by simp [h]⟩
  case read => exact fun e n R as h => ⟨readAnswer_of_listed_ok h n, by simp [h]⟩
  case readFails => exact fun e n as h => ⟨readAnswer_of_listed_ioError h n, by simp [h]⟩
  case write => exact fun e B as h => ⟨writeAnswer_of_listed_ok h B, by simp [h]⟩
  case writeFails => exact fun e B k as h => ⟨writeAnswer_of_listed_ioError h B, by simp [h]⟩

end Sys2Proof.Machine
end

section
/-! SUPPORT. Changing the transport's settings commutes with every operation and every step (R8, R12),
and O51. -/

namespace Sys2Proof.Machine

/-- The state with other transport settings. -/
def State.retune (s : State) (timeout line : Nat) : State :=
  { s with config := { s.config with readTimeout := timeout, lineSettings := line } }

variable (s : State) (timeout line : Nat)

@[simp] theorem retune_session : (s.retune timeout line).session = s.session := rfl
@[simp] theorem retune_pending : (s.retune timeout line).pending = s.pending := rfl
@[simp] theorem retune_env : (s.retune timeout line).env = s.env := rfl

@[simp] theorem retune_decodeMode :
    (s.retune timeout line).config.decodeMode = s.config.decodeMode := rfl

theorem answer_retune (v : Result) :
    (s.retune timeout line).answer v = (s.answer v).retune timeout line := rfl

theorem raise_retune (e : Status) :
    (s.retune timeout line).raise e = (s.raise e).retune timeout line := rfl

theorem frameCheck_retune (P : List Byte) :
    frameCheck (s.retune timeout line) P = frameCheck s P := rfl

theorem finishHandshake_retune (a : ReadAnswer) :
    (s.retune timeout line).finishHandshake a = (s.finishHandshake a).retune timeout line := by
  match a with
  | .ioError => rfl
  | .ok [] => rfl
  | .ok (b :: _) => by_cases hb : b = Config.hsAck <;> simp [State.finishHandshake, hb] <;> rfl

theorem handshake_retune :
    (s.retune timeout line).handshake = s.handshake.retune timeout line := by
  cases h : s.env.writeAnswer [Config.hsReq] with
  | ioError n => simp only [State.handshake, retune_env, h]; rfl
  | ok =>
    simp only [State.handshake, retune_env, h]
    exact finishHandshake_retune ((s.txWrite [Config.hsReq]).txRead 1) timeout line _

theorem exchange_retune (F : List Byte) :
    (s.retune timeout line).exchange F = (s.exchange F).retune timeout line := by
  unfold State.exchange
  simp only [retune_env, txWrite_env]
  cases s.env.writeAnswer F with
  | ioError n => rfl
  | ok => cases (s.env.afterWrite F).readAnswer Config.frameLen <;> rfl

theorem payloadIf_retune (inDomain : Bool) (payload : List Byte) :
    (s.retune timeout line).payloadIf inDomain payload =
      (s.payloadIf inDomain payload).retune timeout line := by
  cases inDomain <;> rfl

/-- An operation's meaning commutes with a change of the transport's settings. -/
theorem exec_retune (i : Instr) (t : State) (h : exec i s = .next t) :
    exec i (s.retune timeout line) = .next (t.retune timeout line) := by
  cases i with
  | connect =>
    obtain rfl := Host.Outcome.next.inj h
    cases hc : s.session.connected <;>
      simp [exec, execConnect, hc, handshake_retune, raise_retune]
  | encode P =>
    obtain rfl := Host.Outcome.next.inj h
    cases hf : frameCheck s P with
    | some e => simp only [exec, execEncode, frameCheck_retune, hf, raise_retune]
    | none =>
      simp only [exec, execEncode, frameCheck_retune, hf]
      exact congrArg _ (answer_retune s.afterStamp timeout line _)
  | send P =>
    obtain rfl := Host.Outcome.next.inj h
    cases hf : frameCheck s P with
    | some e => simp only [exec, execSend, frameCheck_retune, hf, raise_retune]
    | none =>
      simp only [exec, execSend, frameCheck_retune, hf]
      exact congrArg _ (exchange_retune s.afterStamp timeout line _)
  | decode F =>
    obtain rfl := Host.Outcome.next.inj h
    by_cases hl : F.length = Config.frameLen
    · by_cases hm : s.config.decodeMode = .strict ∧ checksumOk F = false <;>
        simp [exec, execDecode, hl, hm, raise_retune, answer_retune]
    · simp [exec, execDecode, hl, raise_retune]
  | encProfile _ | encSpeed _ | encAccel _ | encDecel _ =>
    obtain rfl := Host.Outcome.next.inj h
    exact congrArg _ (payloadIf_retune s timeout line _ _)
  | checksum _ | encFwd | encBwd | encStop | encQuery =>
    obtain rfl := Host.Outcome.next.inj h
    rfl

/-- Settles O51: a step is idle, a block reset, an operation or an illegal request; the moves to come are
the same after the change, and each of the four commutes with it. -/
theorem transportSettingsAreNeverRead : Obligations.TransportSettingsAreNeverRead := by
  intro s t timeout line h
  change step (s.retune timeout line) = .next (t.retune timeout line)
  rcases step_cases s with ⟨hp, hs⟩ | ⟨rest, hp, hs⟩ | ⟨r, rest, i, hp, hd, hs⟩ |
    ⟨r, rest, why, hp, hd, hs⟩
  all_goals rw [hs] at h
  · obtain rfl := Host.Outcome.next.inj h
    exact step_of_idle hp
  · obtain rfl := Host.Outcome.next.inj h
    exact step_of_reset hp
  · rw [step_of_issue (s := s.retune timeout line) hp hd]
    exact exec_retune s.takeMove timeout line i t h
  · obtain rfl := Host.Outcome.next.inj h
    exact step_of_illegal hp hd

end Sys2Proof.Machine
end

section
/-! SUPPORT. What an operation and a step leave of the session and the configuration (R23, R24, R26, R29,
R32), and O1, O2, O44, O54 and O55. -/

namespace Sys2Proof.Machine

variable {s t : State}

/-! ### Reset -/

/-- The two defaults that reset sets are not among what R8 constrains. -/
theorem instantiated_wellFormed : Config.instantiated.WellFormed := by
  change (if Config.chosen.WellFormed then Config.chosen else Config.fallback).WellFormed
  split
  case isTrue h => exact h
  case isFalse => decide

theorem sessionInv_of_session_reset (h : s.session = Session.reset) : SessionInv s := by
  simp [SessionInv, h, Session.reset]

/-- Settles O1: the three values stand in the definitions of the reset state. -/
theorem resetSessionAndConfig : Obligations.ResetSessionAndConfig := ⟨rfl, rfl, rfl⟩

/-- Settles O2: the session is the reset one, the configuration meets R8, and the history is empty. -/
theorem resetMeetsInvariants : Obligations.ResetMeetsInvariants := by
  refine ⟨?session, instantiated_wellFormed, ?timeReads, ?guarded, ?writes⟩
  case session => exact sessionInv_of_session_reset rfl
  case timeReads => exact rfl
  case guarded => exact ⟨rfl, rfl⟩
  case writes => exact fun e he => absurd he List.not_mem_nil

/-! ### One operation -/

/-- What an operation does to the session: nothing; or a handshake succeeds and opens it; or a frame is
counted in an open one (R23, R24, R122). -/
theorem exec_session_cases {i : Instr} (h : exec i s = .next t) :
    t.session = s.session ∨
    (i = .connect ∧ s.session.connected = false ∧ t.response = some ⟨.ok, .empty⟩ ∧
      ∃ x, t.session = ⟨true, some x, s.session.sequence⟩) ∨
    (s.session.connected = true ∧
      t.session = { s.session with sequence := s.session.sequence + 1 }) := by
  rcases exec_cases i s t h with ⟨r, rfl, -⟩ | ⟨hi, hc, rfl⟩ | ⟨P, -, hc, -, rfl⟩ | ⟨P, -, hc, -, rfl⟩
  · exact .inl rfl
  · rcases handshake_summary s with ⟨-, -, -, hs, -⟩ | ⟨x, -, hs, hr, -⟩
    · exact .inl hs
    · exact .inr (.inl ⟨hi, hc, hr, x, hs⟩)
  · exact .inr (.inr ⟨hc, rfl⟩)
  · obtain ⟨-, -, -, hs, -⟩ := exchange_summary s.afterStamp (stampFrame s P)
    exact .inr (.inr ⟨hc, hs⟩)

theorem exec_config {i : Instr} (h : exec i s = .next t) : t.config = s.config := by
  rcases exec_cases i s t h with ⟨r, rfl, -⟩ | ⟨-, -, rfl⟩ | ⟨P, -, -, -, rfl⟩ | ⟨P, -, -, -, rfl⟩
  · rfl
  · rcases handshake_summary s with ⟨-, -, -, -, -, hc, -⟩ | ⟨-, -, -, -, hc, -⟩ <;> exact hc
  · rfl
  · obtain ⟨-, -, -, -, hc, -⟩ := exchange_summary s.afterStamp (stampFrame s P)
    exact hc

/-- Settles O44: an operation leaves the session, opens it by a successful CONNECT, or counts a frame,
which touches neither field. -/
theorem onlyConnectOpensTheSession : Obligations.OnlyConnectOpensTheSession := by
  intro i s t h
  rcases exec_session_cases h with hs | ⟨hi, hc, hr, x, hs⟩ | ⟨hc, hs⟩
  · rw [hs]
    exact ⟨fun hc => ⟨hc, rfl⟩, fun hc => .inl ⟨hc, rfl⟩⟩
  · exact ⟨fun hc' => absurd (hc.symm.trans hc') (by decide),
      fun _ => .inr ⟨hi, congrArg Session.connected hs, hr⟩⟩
  · rw [hs]
    exact ⟨fun hc => ⟨hc, rfl⟩, fun hc' => absurd (hc'.symm.trans hc) (by decide)⟩

/-! ### One step -/

theorem sessionInv_congr (h : t.session = s.session) : SessionInv t ↔ SessionInv s := by
  simp only [SessionInv, h]

/-- An opened session has its epoch, and only an open session counts a frame. -/
theorem exec_keeps_sessionInv {i : Instr} (hinv : SessionInv s) (h : exec i s = .next t) :
    SessionInv t := by
  rcases exec_session_cases h with hs | ⟨-, -, -, x, hs⟩ | ⟨hc, hs⟩
  · exact (sessionInv_congr hs).2 hinv
  · simp [SessionInv, hs]
  · simpa [SessionInv, hs, hc] using hinv.2 hc

/-- Settles O54: a step is idle, a block reset, an operation or an illegal request. -/
theorem stepKeepsSessionInv : Obligations.StepKeepsSessionInv := by
  intro s t hinv h
  rcases step_cases s with ⟨-, hs⟩ | ⟨rest, -, hs⟩ | ⟨r, rest, i, -, -, hs⟩ | ⟨r, rest, why, -, -, hs⟩
  all_goals rw [hs] at h
  · exact Host.Outcome.next.inj h ▸ hinv
  · obtain rfl := Host.Outcome.next.inj h
    exact sessionInv_of_session_reset rfl
  · exact exec_keeps_sessionInv ((sessionInv_congr (takeMove_session s)).2 hinv) h
  · obtain rfl := Host.Outcome.next.inj h
    exact (sessionInv_congr rfl).2 hinv

/-- Settles O55: an idle step, a block reset and an illegal request update other fields only, and so does
an operation (`exec_config`). -/
theorem stepKeepsConfig : Obligations.StepKeepsConfig := by
  intro s t h
  rcases step_cases s with ⟨-, hs⟩ | ⟨rest, -, hs⟩ | ⟨r, rest, i, -, -, hs⟩ | ⟨r, rest, why, -, -, hs⟩
  all_goals rw [hs] at h
  · exact Host.Outcome.next.inj h ▸ rfl
  · exact Host.Outcome.next.inj h ▸ rfl
  · exact (exec_config h).trans (takeMove_config s)
  · exact Host.Outcome.next.inj h ▸ rfl

end Sys2Proof.Machine
end

section
/-! SUPPORT. Two states that agree on all that the primitives read run every operation alike: said once,
for any relation that the primitives keep. -/

namespace Sys2Proof.Machine

/-- `R` is a relation of states that an operation cannot tell apart: it reads the same of both, each
primitive keeps them related, and ending with the same response brings them to states related by `Q`. -/
structure Simulates (R Q : State → State → Prop) : Prop where
  env : ∀ {s u}, R s u → s.env = u.env
  config : ∀ {s u}, R s u → s.config = u.config
  connected : ∀ {s u}, R s u → s.session.connected = u.session.connected
  stampFrame : ∀ {s u}, R s u → ∀ P, stampFrame s P = stampFrame u P
  afterStamp : ∀ {s u}, R s u → R s.afterStamp u.afterStamp
  opened : ∀ {s u}, R s u → ∀ x, R (s.readTime.openSession x) (u.readTime.openSession x)
  txWrite : ∀ {s u}, R s u → ∀ B, R (s.txWrite B) (u.txWrite B)
  txRead : ∀ {s u}, R s u → ∀ n, R (s.txRead n) (u.txRead n)
  answer : ∀ {s u}, R s u → ∀ v, Q (s.answer v) (u.answer v)
  raise : ∀ {s u}, R s u → ∀ e, Q (s.raise e) (u.raise e)

variable {R Q : State → State → Prop} {s u : State}

theorem frameCheck_of_simulates (S : Simulates R Q) (h : R s u) (P : List Byte) :
    frameCheck s P = frameCheck u P := by simp only [frameCheck, S.connected h]

theorem payloadIf_of_simulates (S : Simulates R Q) (h : R s u) (inDomain : Bool) (B : List Byte) :
    Q (s.payloadIf inDomain B) (u.payloadIf inDomain B) := by
  cases inDomain
  · exact S.raise h _
  · exact S.answer h _

theorem finishHandshake_of_simulates (S : Simulates R Q) (h : R s u) (a : ReadAnswer) :
    Q (s.finishHandshake a) (u.finishHandshake a) := by
  match a with
  | .ioError => exact S.raise h _
  | .ok [] => exact S.raise h _
  | .ok (b :: _) =>
    simp only [State.finishHandshake, S.env h]
    split
    · exact S.raise h _
    · exact S.answer (S.opened h _) _

theorem handshake_of_simulates (S : Simulates R Q) (h : R s u) : Q s.handshake u.handshake := by
  simp only [State.handshake, txWrite_env, S.env h]
  cases u.env.writeAnswer [Config.hsReq] with
  | ioError _ => exact S.raise (S.txWrite h _) _
  | ok => exact finishHandshake_of_simulates S (S.txRead (S.txWrite h _) 1) _

theorem exchange_of_simulates (S : Simulates R Q) (h : R s u) (F : List Byte) :
    Q (s.exchange F) (u.exchange F) := by
  simp only [State.exchange, txWrite_env, S.env h]
  cases u.env.writeAnswer F with
  | ioError _ => exact S.raise (S.txWrite h F) _
  | ok =>
    cases (u.env.afterWrite F).readAnswer Config.frameLen with
    | ioError => exact S.raise (S.txRead (S.txWrite h F) _) _
    | ok B => exact S.answer (S.txRead (S.txWrite h F) _) _

/-- Every operation takes related states to related states. -/
theorem exec_of_simulates (S : Simulates R Q) (h : R s u) (i : Instr) {t : State}
    (ht : exec i s = .next t) : ∃ v, exec i u = .next v ∧ Q t v := by
  cases i with
  | connect =>
    obtain rfl := Host.Outcome.next.inj ht
    refine ⟨_, rfl, ?_⟩
    rw [S.connected h]
    split
    · exact S.raise h _
    · exact handshake_of_simulates S h
  | encode P =>
    obtain rfl := Host.Outcome.next.inj ht
    refine ⟨_, rfl, ?_⟩
    rw [frameCheck_of_simulates S h P, S.stampFrame h P]
    cases frameCheck u P with
    | some e => exact S.raise h e
    | none => exact S.answer (S.afterStamp h) _
  | send P =>
    obtain rfl := Host.Outcome.next.inj ht
    refine ⟨_, rfl, ?_⟩
    rw [frameCheck_of_simulates S h P, S.stampFrame h P]
    cases frameCheck u P with
    | some e => exact S.raise h e
    | none => exact exchange_of_simulates S (S.afterStamp h) _
  | decode F =>
    obtain rfl := Host.Outcome.next.inj ht
    refine ⟨_, rfl, ?_⟩
    rw [S.config h]
    split
    · exact S.raise h _
    · split
      · exact S.raise h _
      · exact S.answer h _
  | encProfile _ | encSpeed _ | encAccel _ | encDecel _ =>
    obtain rfl := Host.Outcome.next.inj ht
    refine ⟨_, rfl, ?_⟩
    rw [S.config h]
    exact payloadIf_of_simulates S h _ _
  | checksum _ =>
    obtain rfl := Host.Outcome.next.inj ht
    exact ⟨_, rfl, S.answer h _⟩
  | encFwd | encBwd | encStop | encQuery =>
    obtain rfl := Host.Outcome.next.inj ht
    refine ⟨_, rfl, ?_⟩
    rw [S.config h]
    exact S.answer h _

end Sys2Proof.Machine
end

section
/-! SUPPORT. No operation reads the last response or the moves to come (R27, R205, R244), and O50. -/

namespace Sys2Proof.Machine

/-- `u` is `s` with the moves to come `q` and any last response. -/
def AgreeButForHost (q : List HostMove) (s u : State) : Prop :=
  ∃ r, u = { s with pending := q, response := r }

/-- An operation's response replaces the last one, so that only the moves to come still differ. -/
theorem agreeButForHost_simulates (q : List HostMove) :
    Simulates (AgreeButForHost q) (fun t v => v = { t with pending := q }) where
  env := by rintro s _ ⟨r, rfl⟩; rfl
  config := by rintro s _ ⟨r, rfl⟩; rfl
  connected := by rintro s _ ⟨r, rfl⟩; rfl
  stampFrame := by rintro s _ ⟨r, rfl⟩ P; rfl
  afterStamp := by rintro s _ ⟨r, rfl⟩; exact ⟨r, rfl⟩
  opened := by rintro s _ ⟨r, rfl⟩ x; exact ⟨r, rfl⟩
  txWrite := by rintro s _ ⟨r, rfl⟩ B; exact ⟨r, rfl⟩
  txRead := by rintro s _ ⟨r, rfl⟩ n; exact ⟨r, rfl⟩
  answer := by rintro s _ ⟨r, rfl⟩ v; rfl
  raise := by rintro s _ ⟨r, rfl⟩ e; rfl

/-- Settles O50: the changed state agrees with the first but for the host's fields. -/
theorem noOutcomePersists : Obligations.NoOutcomePersists := by
  intro i s t q r h
  obtain ⟨v, hv, rfl⟩ := exec_of_simulates (agreeButForHost_simulates q) ⟨r, rfl⟩ i h
  exact hv

end Sys2Proof.Machine
end

section
/-! SUPPORT. The sequence register counts in 8 bits as far as anything but itself can tell (R25, R31),
and O59. -/

namespace Sys2Proof.Machine

/-- Two states agree but for the sequence above 255. -/
def AgreeMod256 (s u : State) : Prop := s.narrow = u.narrow

variable {s t u : State}

/-- A frame is stamped with the sequence modulo 256 only (R120). -/
theorem stampFrame_narrow (P : List Byte) : stampFrame s.narrow P = stampFrame s P := by
  simp [stampFrame, seqByte, elapsed, Session.epochValue]

/-- Counting in 8 bits and cutting to 8 bits after the count come to the same. -/
theorem afterStamp_narrow : s.narrow.afterStamp.narrow = s.afterStamp.narrow := by
  simp [State.narrow, State.afterStamp, State.countFrame, State.readTime]

/-- What `narrow` leaves as it was is the same of both states. -/
theorem AgreeMod256.eq_of_narrow {α : Type} (h : AgreeMod256 s u) (f : State → α)
    (hf : ∀ s, f s.narrow = f s) : f s = f u := by rw [← hf s, ← hf u, h]

/-- An update that commutes with `narrow` keeps two states in agreement. -/
theorem AgreeMod256.map (h : AgreeMod256 s u) (f : State → State)
    (hf : ∀ s, (f s).narrow = f s.narrow) : AgreeMod256 (f s) (f u) := by
  rw [AgreeMod256, hf, hf, h]

/-- Every primitive but the count commutes with `narrow`. -/
theorem agreeMod256_simulates : Simulates AgreeMod256 AgreeMod256 where
  env h := h.eq_of_narrow State.env fun _ => rfl
  config h := h.eq_of_narrow State.config fun _ => rfl
  connected h := h.eq_of_narrow (·.session.connected) fun _ => rfl
  stampFrame h P := h.eq_of_narrow (stampFrame · P) fun _ => stampFrame_narrow P
  afterStamp h := by rw [AgreeMod256, ← afterStamp_narrow, h, afterStamp_narrow]
  opened h x := h.map (·.readTime.openSession x) fun _ => rfl
  txWrite h B := h.map (·.txWrite B) fun _ => rfl
  txRead h n := h.map (·.txRead n) fun _ => rfl
  answer h v := h.map (·.answer v) fun _ => rfl
  raise h e := h.map (·.raise e) fun _ => rfl

/-- The moves to come agree, so both states take the same kind of step. -/
theorem step_of_agreeMod256 (h : AgreeMod256 s u) (ht : step s = .next t) :
    ∃ v, step u = .next v ∧ AgreeMod256 t v := by
  have hpending : s.pending = u.pending := h.eq_of_narrow State.pending fun _ => rfl
  have htaken : AgreeMod256 s.takeMove u.takeMove := h.map State.takeMove fun _ => rfl
  rcases step_cases s with ⟨hp, hs⟩ | ⟨rest, hp, hs⟩ | ⟨r, rest, i, hp, hd, hs⟩ |
    ⟨r, rest, why, hp, hd, hs⟩
  all_goals
    rw [hs] at ht
    rw [hpending] at hp
  · obtain rfl := Host.Outcome.next.inj ht
    exact ⟨u, step_of_idle hp, h⟩
  · obtain rfl := Host.Outcome.next.inj ht
    exact ⟨_, step_of_reset hp, htaken.map State.blockReset fun _ => rfl⟩
  · rw [step_of_issue hp hd]
    exact exec_of_simulates agreeMod256_simulates htaken i ht
  · obtain rfl := Host.Outcome.next.inj ht
    exact ⟨_, step_of_illegal hp hd, htaken.map (·.illegal why) fun _ => rfl⟩

theorem run_succ_of_step (n : Nat) (h : step s = .next t) : core.run (n + 1) s = core.run n t := by
  simp only [Host.Core.run, core, h]

/-- A run of one more step answers a next state only through a first step that does. -/
theorem step_of_run_succ {n : Nat} (h : core.run (n + 1) s = .next t) :
    ∃ s', step s = .next s' ∧ core.run n s' = .next t := by
  cases hs : step s with
  | next s' => exact ⟨s', rfl, run_succ_of_step n hs ▸ h⟩
  | fault r => cases r
  | refused r => simp [Host.Core.run, core, hs] at h

/-- Settles O59, by induction on the number of steps: a step takes states that agree to states that
agree. -/
theorem narrowSequenceIsUnobservable : Obligations.NarrowSequenceIsUnobservable := by
  intro n
  induction n with
  | zero =>
    intro s u t h ht
    obtain rfl := Host.Outcome.next.inj ht
    exact ⟨u, rfl, h⟩
  | succ n ih =>
    intro s u t h ht
    obtain ⟨s', hs, hrun⟩ := step_of_run_succ ht
    obtain ⟨u', hu, h'⟩ := step_of_agreeMod256 h hs
    obtain ⟨v, hv, hagree⟩ := ih s' u' t h' hrun
    exact ⟨v, (run_succ_of_step n hu).trans hv, hagree⟩

end Sys2Proof.Machine
end

section
/-! SUPPORT. The events an operation and a step add to the history are ones the codec may cause (R46, R63,
R64, R123), and O58. -/

namespace Sys2Proof.Machine

variable {s t : State}

/-! ### The frame -/

/-- Marker first and fold last: a frame's own fold is then zero (R123). -/
theorem frameShape_snoc {pre : List Byte} (hlen : pre.length = 39) (hmarker : pre[0]? = some 0xFF#8) :
    FrameShape (pre ++ [xorFold pre]) := by
  refine ⟨?length, ?marker, ?checksum, ?fold⟩
  case length => simp [hlen]
  case marker => rw [List.getElem?_append_left (by omega), hmarker]
  case checksum => rw [← hlen, List.getElem?_concat_length, List.take_left]
  case fold => rw [xorFold_snoc, BitVec.xor_self]

theorem stampFrame_shape {P : List Byte} (h : P.length = 35) : FrameShape (stampFrame s P) :=
  frameShape_snoc (by simp [h]) rfl

/-! ### The history -/

theorem traceInv_of_append {new : List Event} (htrace : t.env.trace = s.env.trace ++ new)
    (hs : TraceInv s) (hnew : ∀ e ∈ new, EventOk e) : TraceInv t := by
  intro e he
  rw [htrace, List.mem_append] at he
  exact he.elim (hs e) (hnew e)

/-- A handshake writes its one byte, reads at most one, and may read the time (R110). -/
theorem handshake_keeps_traceInv (hs : TraceInv s) : TraceInv s.handshake := by
  rcases handshake_summary s with
    ⟨new, r, htrace, -, -, -, -, -, -, ⟨a, rfl, ha⟩ | ⟨b, rfl, -, hb⟩⟩ | ⟨x, htrace, -⟩
  · exact traceInv_of_append htrace hs (by simpa [EventOk] using ha)
  · exact traceInv_of_append htrace hs (by simpa [EventOk] using hb)
  · exact traceInv_of_append htrace hs (by simp [EventOk])

/-- An exchange of a well-made frame writes it whole and reads at most 40 bytes (R125). -/
theorem exchange_keeps_traceInv {F : List Byte} (hF : FrameShape F) (hs : TraceInv s) :
    TraceInv (s.exchange F) := by
  obtain ⟨new, r, htrace, -, -, -, -, -, ⟨a, rfl, ha⟩ | ⟨b, rfl, hb⟩⟩ := exchange_summary s F
  · exact traceInv_of_append htrace hs (by simpa [EventOk, hF] using ha)
  · exact traceInv_of_append htrace hs (by simpa [EventOk, hF] using hb)

theorem afterStamp_keeps_traceInv (hs : TraceInv s) : TraceInv s.afterStamp :=
  traceInv_of_append (afterNow_trace s.env) hs (by simp [EventOk])

theorem exec_keeps_traceInv {i : Instr} (hs : TraceInv s) (h : exec i s = .next t) : TraceInv t := by
  rcases exec_cases i s t h with ⟨r, rfl, -⟩ | ⟨-, -, rfl⟩ | ⟨P, -, -, -, rfl⟩ | ⟨P, -, -, hP, rfl⟩
  · exact hs
  · exact handshake_keeps_traceInv hs
  · exact afterStamp_keeps_traceInv hs
  · exact exchange_keeps_traceInv (stampFrame_shape hP) (afterStamp_keeps_traceInv hs)

/-- Settles O58: an idle step and an illegal request add no event, a block reset adds its mark, and an
operation adds events of the allowed forms only. -/
theorem stepKeepsWritesWellMade : Obligations.StepKeepsWritesWellMade := by
  intro s t hinv h
  rcases step_cases s with ⟨-, hs⟩ | ⟨rest, -, hs⟩ | ⟨r, rest, i, -, -, hs⟩ | ⟨r, rest, why, -, -, hs⟩
  all_goals rw [hs] at h
  · exact Host.Outcome.next.inj h ▸ hinv
  · obtain rfl := Host.Outcome.next.inj h
    exact traceInv_of_append (new := [.blockReset]) rfl hinv (by simp [EventOk])
  · exact exec_keeps_traceInv (s := s.takeMove) hinv h
  · obtain rfl := Host.Outcome.next.inj h
    exact hinv

end Sys2Proof.Machine
end

section
/-! SUPPORT. Which registers each operation writes and what it asks of the other agents (R46), and O48. -/

namespace Sys2Proof.Machine

/-- Settles O48: an operation that changes the response only adds no event; the others are a handshake, a
stamped frame that is returned, and a stamped frame that is exchanged. -/
theorem sideEffectTable : Obligations.SideEffectTable := by
  intro i s t h
  rcases exec_cases i s t h with ⟨r, rfl, -⟩ | ⟨rfl, -, rfl⟩ | ⟨P, rfl, -, -, rfl⟩ | ⟨P, rfl, -, hP, rfl⟩
  · refine ⟨[], (List.append_nil _).symm, ?_⟩
    cases i with
    | connect => exact ⟨rfl, .inl rfl⟩
    | encode _ | send _ => exact ⟨rfl, rfl, .inl rfl⟩
    | decode _ | checksum _ | encProfile _ | encSpeed _ | encAccel _ | encDecel _
    | encFwd | encBwd | encStop | encQuery => exact ⟨rfl, rfl⟩
  · rcases handshake_summary s with
      ⟨new, r, htrace, hsession, -, -, -, -, -, ⟨a, rfl, -⟩ | ⟨b, rfl, -⟩⟩ | ⟨x, htrace, hsession, -⟩
    · exact ⟨_, htrace, by rw [hsession], .inr (.inl ⟨a, rfl⟩)⟩
    · exact ⟨_, htrace, by rw [hsession], .inr (.inr (.inl ⟨_, b, rfl⟩))⟩
    · exact ⟨_, htrace, by rw [hsession], .inr (.inr (.inr ⟨_, _, x, rfl⟩))⟩
  · exact ⟨_, afterNow_trace s.env, rfl, rfl, .inr ⟨_, rfl⟩⟩
  · have hF : (stampFrame s P).length = 40 := buildFrame_length P _ _ hP
    obtain ⟨new, r, htrace, hsession, -, -, -, -, hnew⟩ :=
      exchange_summary s.afterStamp (stampFrame s P)
    rw [afterStamp_env, afterNow_trace, List.append_assoc] at htrace
    refine ⟨_, htrace, by rw [hsession]; rfl, by rw [hsession]; rfl, ?_⟩
    rcases hnew with ⟨a, rfl, -⟩ | ⟨b, rfl, -⟩
    · exact .inr (.inl ⟨_, _, a, hF, rfl⟩)
    · exact .inr (.inr ⟨_, _, _, b, hF, rfl⟩)

end Sys2Proof.Machine
end

section
/-! SUPPORT. The ends of an operation that reads its operand and the configuration only (R46, R140, R183),
and O49. -/

namespace Sys2Proof.Machine

/-- In every state of the configuration `c`, `f` replaces the response by one and the same, and changes
nothing else. -/
def RespondsFrom (c : Config) (f : State → Host.Outcome State Fault Refusal) : Prop :=
  ∃ r : Response, ∀ s : State, s.config = c → f s = .next { s with response := some r }

variable (c : Config)

theorem respondsFrom_answer (value : Config → Result) :
    RespondsFrom c fun s => .next (s.answer (value s.config)) :=
  ⟨⟨.ok, value c⟩, fun s hs => by subst hs; rfl⟩

theorem respondsFrom_payloadIf (inDomain : Bool) (payload : Config → List Byte) :
    RespondsFrom c fun s => .next (s.payloadIf inDomain (payload s.config)) := by
  cases inDomain with
  | false => exact ⟨⟨.outOfRange, .empty⟩, fun s _ => rfl⟩
  | true => exact respondsFrom_answer c fun c => .bytes (payload c)

/-- The length of a frame and the decode mode settle how a DECODE ends (R180, R182). -/
theorem respondsFrom_execDecode (F : List Byte) : RespondsFrom c (execDecode F) := by
  by_cases hl : F.length = Config.frameLen
  · by_cases hm : c.decodeMode = .strict ∧ checksumOk F = false
    · exact ⟨⟨.checksumMismatch, .empty⟩, fun s hs => by simp [execDecode, hl, hs, hm, State.raise]⟩
    · exact ⟨⟨.ok, .rawStatus (rawStatusOf F)⟩,
        fun s hs => by simp [execDecode, hl, hs, hm, State.answer]⟩
  · exact ⟨⟨.invalidFrameLength, .empty⟩, fun s _ => by simp [execDecode, hl, State.raise]⟩

/-- Settles O49: a pure operation is a DECODE, a domain check before a payload of the configuration, or an
answer of the configuration. -/
theorem pureOperationsReadOnlyConfig : Obligations.PureOperationsReadOnlyConfig := by
  intro i c hi
  change RespondsFrom c (exec i)
  cases i with
  | connect | encode _ | send _ => cases hi
  | decode F => exact respondsFrom_execDecode c F
  | checksum B => exact respondsFrom_answer c fun _ => .byte (xorFold B)
  | encProfile p => exact respondsFrom_payloadIf c _ (profilePayload · p)
  | encSpeed r => exact respondsFrom_payloadIf c _ (speedPayload · r)
  | encAccel x => exact respondsFrom_payloadIf c _ fun c => rampPayload c c.opAccel x
  | encDecel x => exact respondsFrom_payloadIf c _ fun c => rampPayload c c.opDecel x
  | encFwd => exact respondsFrom_answer c fun c => .bytes c.payloadFwd.toList
  | encBwd => exact respondsFrom_answer c fun c => .bytes c.payloadBwd.toList
  | encStop => exact respondsFrom_answer c fun c => .bytes c.payloadStop.toList
  | encQuery => exact respondsFrom_answer c fun c => .bytes c.payloadQuery.toList

end Sys2Proof.Machine
end

section
/-! SUPPORT. The decoder on listed and unlisted opcodes and on encodings (R61, R62, R69), and O4, O7, O9,
O10, O11. -/

namespace Sys2Proof.Machine

/-- Settles O9: one row of R61's table each. -/
theorem opcodeBytesDecode : Obligations.OpcodeBytesDecode := fun _ _ _ =>
  ⟨rfl, rfl, rfl, rfl, rfl, rfl, rfl, rfl, rfl, rfl, rfl, rfl, rfl⟩

/-- Settles O10: the opcode of each operation's encoding is the opcode of its own row, and its operand is on
the lane that row reads. -/
theorem decodeReadsBackEncode : Obligations.DecodeReadsBackEncode := by
  intro i
  cases i with
  | connect | encode _ | send _ | decode _ | checksum _ | encProfile _ | encSpeed _ | encAccel _
  | encDecel _ | encFwd | encBwd | encStop | encQuery => rfl

/-- Settles O11: a case for each row of R61's table; the illegal opcodes decode to nothing. -/
theorem operationHasOneOpcode : Obligations.OperationHasOneOpcode := by
  intro r i h
  unfold decode at h
  split at h
  case h_14 => cases h
  all_goals
    next hopc =>
    obtain rfl := Except.ok.inj h
    simp [encode, hopc]

/-- The opcodes of R61 are those of its two groups. -/
theorem encode_opc_listed (i : Instr) :
    (encode i).opc.toNat ≤ 0x04 ∨ (0x10 ≤ (encode i).opc.toNat ∧ (encode i).opc.toNat ≤ 0x17) := by
  cases i with
  | connect | encode _ | send _ | decode _ | checksum _ => exact .inl (by simp [encode])
  | encProfile _ | encSpeed _ | encAccel _ | encDecel _ | encFwd | encBwd | encStop | encQuery =>
    exact .inr (by simp [encode])

/-- An opcode outside R61's list is rejected: an operation's own opcode is in the list (R69). -/
theorem decode_unlisted {r : Request}
    (h : (0x05 ≤ r.opc.toNat ∧ r.opc.toNat ≤ 0x0F) ∨ 0x18 ≤ r.opc.toNat) :
    ∃ why, decode r = .error why := by
  cases hd : decode r with
  | error why => exact ⟨why, rfl⟩
  | ok i =>
    have hlisted := encode_opc_listed i
    rw [(operationHasOneOpcode r i hd).1] at hlisted
    omega

/-- Settles O7: the request is rejected, and a rejected request changes the response only. -/
theorem unlistedOpcodeIsIllegal : Obligations.UnlistedOpcodeIsIllegal := by
  intro s r rest hp hopc
  obtain ⟨why, hd⟩ := decode_unlisted hopc
  rw [step_of_illegal hp hd, takeMove_of_pending hp]
  rfl

/-- A word of the table is a request that decodes. -/
theorem decode_of_decodeTableWord {nbits w : Nat} {i : Instr} (h : decodeTableWord nbits w = some i) :
    decode (tableRequest w) = .ok i := by
  unfold decodeTableWord at h
  split at h
  · cases hd : decode (tableRequest w) with
    | error why => rw [hd] at h; cases h
    | ok j => rw [hd] at h; exact congrArg _ (Option.some.inj h)
  · cases h

/-- Settles O4: the placed request is the first move, and taking it gives the state back. -/
theorem placedWordRunsNext : Obligations.PlacedWordRunsNext := by
  intro s w i h
  exact step_of_issue (withFetchWord_pending s 8 w) (decode_of_decodeTableWord h)

end Sys2Proof.Machine
end

section
/-! SUPPORT. How a line begins: its mnemonic is the key of one row of the assembler's table, and the rest of
the line is read as that row says (R72). -/

namespace Sys2Proof.Machine

/-! ### Where a word ends -/

/-- The text ends the word that stands before it: it is empty, or begins with a space or a bracket. -/
def EndsWord (rest : List Char) : Prop :=
  rest = [] ∨ ∃ c cs, rest = c :: cs ∧ (c = ' ' ∨ c = '[' ∨ c = ']' ∨ c = '(' ∨ c = ')')

theorem endsWord_space (cs : List Char) : EndsWord (' ' :: cs) := .inr ⟨_, _, rfl, .inl rfl⟩

theorem endsWord_close (cs : List Char) : EndsWord (']' :: cs) := .inr ⟨_, _, rfl, by simp⟩

theorem tokens_open (rest : List Char) : tokens [] ('[' :: rest) = ['['] :: tokens [] rest :=
  tokens_bracket _ (by simp) _ _

theorem tokens_close (rest : List Char) : tokens [] (']' :: rest) = [']'] :: tokens [] rest :=
  tokens_bracket _ (by simp) _ _

theorem endsWord_lineEnd {last : List Char} {name : Option Name} (h : IsLineEnd last name) :
    EndsWord last := by
  obtain ⟨rfl, -⟩ | ⟨n, -, rfl, -⟩ := h
  · exact .inl rfl
  · exact endsWord_space _

/-- A word, and whatever ends it. -/
theorem tokens_word_endsWord {cs rest : List Char} (hne : cs ≠ []) (h : ∀ c ∈ cs, IsPlain c)
    (hrest : EndsWord rest) : tokens [] (cs ++ rest) = cs :: tokens [] rest := by
  obtain rfl | ⟨c, ds, rfl, rfl | hc⟩ := hrest
  · simp [tokens_last cs hne h, flush]
  · simp [tokens_word cs hne h, flush]
  · rw [tokens_word_bracket cs hne h c hc, tokens_bracket c hc]
    rfl

/-! ### The row of a mnemonic -/

/-- In a list whose keys differ, a search for an element's key finds that element. -/
theorem find?_key_of_nodup {α β : Type} [BEq β] [LawfulBEq β] {f : α → β} {l : List α}
    (hl : (l.map f).Nodup) {a : α} (ha : a ∈ l) : l.find? (fun x => f x == f a) = some a := by
  have hfound : (l.find? fun x => f x == f a).isSome := List.find?_isSome.2 ⟨a, ha, by simp⟩
  obtain ⟨b, hb⟩ := Option.isSome_iff_exists.1 hfound
  have hkey : f b = f a := by simpa using List.find?_some hb
  rw [hb, List.inj_on_of_nodup_map hl (List.mem_of_find?_eq_some hb) ha hkey]

theorem asmTable_keys_nodup : (asmTable.map fun row => row.1.toList).Nodup := by
  simp [asmTable]

/-- A mnemonic is a word. -/
theorem asmTable_key_word : ∀ m ∈ asmTable.map (fun row => row.1.toList),
    m ≠ [] ∧ ∀ c ∈ m, IsPlain c := by simp [asmTable, IsPlain, isBracket]

/-- A line that begins with a mnemonic is read as the mnemonic's row says. -/
theorem assembleChars_of_row {m : String} {read : List (List Char) → Option AsmLine}
    (hrow : (m, read) ∈ asmTable) {rest : List Char} (hrest : EndsWord rest) :
    assembleChars (m.toList ++ rest) = read (tokens [] rest) := by
  obtain ⟨hne, hplain⟩ := asmTable_key_word _ (List.mem_map_of_mem hrow)
  have hfind : asmTable.find? (fun row => row.1.toList == m.toList) = some (m, read) :=
    find?_key_of_nodup asmTable_keys_nodup hrow
  simp only [assembleChars, tokens_word_endsWord hne hplain hrest, hfind]

/-- `start` is a mnemonic and the space before its operand, which is read by `read`. -/
def StartsLine (start : String) (read : List (List Char) → Option AsmLine) : Prop :=
  ∃ m : String, start.toList = m.toList ++ [' '] ∧ (m, read) ∈ asmTable

theorem assembleChars_of_start {start : String} {read : List (List Char) → Option AsmLine}
    (h : StartsLine start read) (rest : List Char) :
    assembleChars (start.toList ++ rest) = read (tokens [] rest) := by
  obtain ⟨m, hm, hrow⟩ := h
  rw [hm, List.append_assoc, List.singleton_append, assembleChars_of_row hrow (endsWord_space rest),
    tokens_space]
  rfl

theorem IsByteLine.starts {start : String} {op : List Byte → Instr} (h : IsByteLine start op) :
    ∃ named, StartsLine start (byteLine op named) := by
  obtain ⟨rfl, rfl⟩ | ⟨rfl, rfl⟩ | ⟨rfl, rfl⟩ | ⟨rfl, rfl⟩ := h
  · exact ⟨.encodeOf, "ENCODE", by simp, by simp [asmTable]⟩
  · exact ⟨.sendOf, "SEND", by simp, by simp [asmTable]⟩
  · exact ⟨.decodeOf, "DECODE", by simp, by simp [asmTable]⟩
  · exact ⟨.checksumOf, "CHECKSUM", by simp, by simp [asmTable]⟩

theorem IsNamedLine.starts {start : String} {op : Name → Call} (h : IsNamedLine start op) :
    ∃ literal, StartsLine start (byteLine literal op) := by
  obtain ⟨rfl, rfl⟩ | ⟨rfl, rfl⟩ | ⟨rfl, rfl⟩ | ⟨rfl, rfl⟩ := h
  · exact ⟨.encode, "ENCODE", by simp, by simp [asmTable]⟩
  · exact ⟨.send, "SEND", by simp, by simp [asmTable]⟩
  · exact ⟨.decode, "DECODE", by simp, by simp [asmTable]⟩
  · exact ⟨.checksum, "CHECKSUM", by simp, by simp [asmTable]⟩

theorem IsIntLine.starts {start : String} {op : Int → Instr} (h : IsIntLine start op) :
    StartsLine start (intLine op) := by
  obtain ⟨rfl, rfl⟩ | ⟨rfl, rfl⟩ := h
  · exact ⟨"ENC_PROFILE", by simp, by simp [asmTable]⟩
  · exact ⟨"ENC_SPEED", by simp, by simp [asmTable]⟩

theorem IsRealLine.starts {start : String} {op : Binary64 → Instr} (h : IsRealLine start op) :
    StartsLine start (realLine op) := by
  obtain ⟨rfl, rfl⟩ | ⟨rfl, rfl⟩ := h
  · exact ⟨"ENC_ACCEL", by simp, by simp [asmTable]⟩
  · exact ⟨"ENC_DECEL", by simp, by simp [asmTable]⟩

theorem IsPlainLine.row {start : String} {i : Instr} (h : IsPlainLine start i) :
    (start, lineEnd (.literal i)) ∈ asmTable := by
  obtain ⟨rfl, rfl⟩ | ⟨rfl, rfl⟩ | ⟨rfl, rfl⟩ | ⟨rfl, rfl⟩ | ⟨rfl, rfl⟩ := h <;> simp [asmTable]

/-! ### The end of the line -/

theorem lineEnd_tokens {last : List Char} {name : Option Name} (h : IsLineEnd last name) (c : Call) :
    lineEnd c (tokens [] last) = some (.request { call := c, name := name }) := by
  obtain ⟨_, rfl, -, hread, -⟩ := lineEnd_of h
  exact hread c

/-- A line whose operand is one word, once `read` is known to leave the rest to the end of the line. -/
theorem assembleChars_word {start : String} {read : List (List Char) → Option AsmLine}
    (hstart : StartsLine start read) {word last : List Char} {name : Option Name} (hne : word ≠ [])
    (hword : ∀ c ∈ word, IsPlain c) (hlast : IsLineEnd last name) {c : Call}
    (hread : read (word :: tokens [] last) = lineEnd c (tokens [] last)) :
    assembleChars (start.toList ++ word ++ last) = some (.request { call := c, name := name }) := by
  rw [List.append_assoc, assembleChars_of_start hstart, tokens_word_lineEnd word hne hword hlast,
    hread, lineEnd_tokens hlast]

end Sys2Proof.Machine
end

section
/-! SUPPORT. What the inside of a byte list's brackets is read as (R72), O12 and O13. -/

namespace Sys2Proof.Machine

/-! ### The items of a byte list -/

theorem hexChar_ne_plus : ∀ d < 16, hexChar d ≠ '+' := by decide

/-- A hexadecimal pair is no other item of a byte list: no other has two characters but `++`. -/
theorem byteItems_pair (item plus : Bool) (b : Byte) (ws : List (List Char)) :
    byteItems item plus (pairText b :: ws) =
      (byteItems true false ws).map (Prod.map (b :: ·) id) := by
  have hb : b.toNat < 256 := b.isLt
  have hhigh : hexChar (b.toNat / 16) ≠ '+' := hexChar_ne_plus _ (by omega)
  have hread := hexByte_pairText b
  rw [pairText] at hread ⊢
  rw [byteItems.eq_def]
  simp [hhigh, hread]
  cases byteItems true false ws <;> rfl

theorem byteItems_zeros (item plus : Bool) {n : List Char} (hn : IsDecimal n)
    (ws : List (List Char)) :
    byteItems item plus ("zeros".toList :: ['('] :: n :: [')'] :: ws) =
      (byteItems true false ws).map (Prod.map (zeros (decimalValue n) ++ ·) id) := by
  rw [byteItems.eq_def]
  simp only [String.reduceToList, decimalNat_of hn]
  cases byteItems true false ws <;> rfl

theorem byteItems_close (item : Bool) (ws : List (List Char)) :
    byteItems item false ([']'] :: ws) = some ([], ws) := rfl

theorem byteItems_plus (ws : List (List Char)) :
    byteItems true plus (['+', '+'] :: ws) = byteItems false true ws := rfl

theorem byteItems_pairs (item plus : Bool) (b : Byte) (bs : List Byte) (ws : List (List Char)) :
    byteItems item plus ((b :: bs).map pairText ++ ws) =
      (byteItems true false ws).map (Prod.map (b :: bs ++ ·) id) := by
  induction bs generalizing item plus b with
  | nil => exact byteItems_pair item plus b ws
  | cons c cs ih =>
    rw [List.map_cons, List.cons_append, byteItems_pair, ih true false c, Option.map_map]
    rfl

/-! ### Pairs and parts as text -/

theorem tokens_pairsText (bs : List Byte) {rest : List Char} (hrest : EndsWord rest) :
    tokens [] (pairsText bs ++ rest) = bs.map pairText ++ tokens [] rest := by
  induction bs using pairsText.induct with
  | case1 => rfl
  | case2 b => exact tokens_word_endsWord (pairText_ne b) (pairText_plain b) hrest
  | case3 b bs hbs ih =>
    rw [pairsText, List.append_assoc, List.cons_append,
      tokens_word _ (pairText_ne b) (pairText_plain b), ih]
    · rfl
    · exact hbs

theorem tokens_zerosText {n : List Char} (hn : IsDecimal n) (rest : List Char) :
    tokens [] (pieceText (.zeros n) ++ rest) =
      "zeros".toList :: ['('] :: n :: [')'] :: tokens [] rest := by
  have htext : pieceText (.zeros n) ++ rest = "zeros".toList ++ '(' :: (n ++ ')' :: rest) := by
    change "zeros(".toList ++ n ++ [')'] ++ rest = _
    simp
  rw [htext, tokens_word_bracket _ (by simp) (by simp [IsPlain, isBracket]) _ (by simp),
    tokens_word_bracket n hn.1 hn.plain _ (by simp)]

theorem tokens_plusText (rest : List Char) :
    tokens [] (" ++ ".toList ++ rest) = ['+', '+'] :: tokens [] rest := by
  have htext : " ++ ".toList ++ rest = ' ' :: (['+', '+'] ++ ' ' :: rest) := by simp
  rw [htext, tokens_space, tokens_word _ (by simp) (by simp [IsPlain, isBracket])]
  rfl

/-- A part is read as its bytes, and an item then stands before what follows it. -/
theorem byteItems_pieceText (item plus : Bool) {p : Piece} (hp : IsPiece p) {rest : List Char}
    (hrest : EndsWord rest) :
    byteItems item plus (tokens [] (pieceText p ++ rest)) =
      (byteItems true false (tokens [] rest)).map (Prod.map (pieceBytes p ++ ·) id) := by
  cases p with
  | pairs bs =>
    change byteItems item plus (tokens [] (pairsText bs ++ rest)) = _
    rw [tokens_pairsText bs hrest]
    cases bs with
    | nil => exact absurd rfl hp
    | cons b bs => exact byteItems_pairs item plus b bs _
  | zeros n => rw [tokens_zerosText hp, byteItems_zeros item plus hp]; rfl

/-- Parts joined by `++` are read as their bytes one after the other, up to the closing bracket. -/
theorem byteItems_piecesText (ps : List Piece) (hne : ps ≠ []) (hps : ∀ p ∈ ps, IsPiece p)
    (item plus : Bool) (rest : List Char) :
    byteItems item plus (tokens [] (piecesText ps ++ ']' :: rest)) =
      some (ps.flatMap pieceBytes, tokens [] rest) := by
  induction ps using piecesText.induct generalizing item plus with
  | case1 => exact absurd rfl hne
  | case2 p =>
    rw [piecesText, byteItems_pieceText item plus (hps p (by simp)) (endsWord_close rest),
      tokens_close, byteItems_close]
    simp
  | case3 p ps hcons ih =>
    have hrest : EndsWord (" ++ ".toList ++ (piecesText ps ++ ']' :: rest)) := endsWord_space _
    rw [piecesText, List.append_assoc, List.append_assoc,
      byteItems_pieceText item plus (hps p (by simp)) hrest, tokens_plusText, byteItems_plus,
      ih hcons (fun q hq => hps q (by simp [hq]))]
    · rfl
    · exact hcons

/-! ### The two statements -/

theorem byteLine_of_literal (literal : List Byte → Instr) (named : Name → Call)
    {ws rest : List (List Char)} {bs : List Byte} (h : byteItems false false ws = some (bs, rest)) :
    byteLine literal named (['['] :: ws) = lineEnd (.literal (literal bs)) rest := by
  have hliteral : byteLiteral (['['] :: ws) = some (bs, rest) := h
  rw [byteLine.eq_def, hliteral]

/-- A line whose byte operand opens a bracket, once the inside of the bracket is known to be read. -/
theorem assembleChars_bracket {start : String} {op : List Byte → Instr} (hstart : IsByteLine start op)
    {last : List Char} {name : Option Name} (hlast : IsLineEnd last name) {text : List Char}
    {bs : List Byte}
    (htext : byteItems false false (tokens [] text) = some (bs, tokens [] last)) :
    assembleChars (start.toList ++ '[' :: text) =
      some (.request { call := .literal (op bs), name := name }) := by
  obtain ⟨named, hrow⟩ := hstart.starts
  rw [assembleChars_of_start hrow, tokens_open, byteLine_of_literal _ _ htext]
  exact lineEnd_tokens hlast _

/-- The pairs of any byte list, none among them, are read up to the closing bracket. -/
theorem byteItems_pairs_close (bs : List Byte) (ws : List (List Char)) :
    byteItems false false (bs.map pairText ++ [']'] :: ws) = some (bs, ws) := by
  cases bs with
  | nil => exact byteItems_close false ws
  | cons b bs =>
    rw [byteItems_pairs, byteItems_close]
    simp

/-- Settles O12: the words of the line are its mnemonic, the brackets and the pairs, which are read back
one by one; a space inside a bracket ends no word and makes none. -/
theorem assembledByteListsReadBack : Obligations.AssembledByteListsReadBack := by
  intro bs text last name start op htext hstart hlast
  obtain rfl | rfl := htext
  · have hwords : tokens [] (pairsText bs ++ ']' :: last) =
        bs.map pairText ++ [']'] :: tokens [] last := by
      rw [tokens_pairsText bs (endsWord_close last), tokens_close]
    have hread := assembleChars_bracket hstart hlast (hwords ▸ byteItems_pairs_close bs _)
    simpa [bytesText] using hread
  · have hwords : tokens [] (' ' :: (pairsText bs ++ ' ' :: ']' :: last)) =
        bs.map pairText ++ [']'] :: tokens [] last := by
      rw [tokens_space, tokens_pairsText bs (endsWord_space _), tokens_space, tokens_close]
      rfl
    have hread := assembleChars_bracket hstart hlast (hwords ▸ byteItems_pairs_close bs _)
    simpa [spacedBytesText] using hread

/-- Settles O13, by induction on the parts; with none the brackets are empty. -/
theorem assembledZerosAndConcatenation : Obligations.AssembledZerosAndConcatenation := by
  intro ps last name start op hps hstart hlast
  have hinside : byteItems false false (tokens [] (piecesText ps ++ ']' :: last)) =
      some (ps.flatMap pieceBytes, tokens [] last) := by
    by_cases hne : ps = []
    · subst hne
      exact (congrArg _ (tokens_close last)).trans (byteItems_close false _)
    · exact byteItems_piecesText ps hne hps false false last
  simpa using assembleChars_bracket hstart hlast hinside

end Sys2Proof.Machine
end

section
/-! SUPPORT. What a decimal literal is read as (R72, R11), and O14. -/

namespace Sys2Proof.Machine

theorem IsDecimal.append {m n : List Char} (hm : IsDecimal m) (hn : IsDecimal n) :
    IsDecimal (m ++ n) :=
  ⟨by simp [hm.1], fun c hc => (List.mem_append.1 hc).elim (hm.2 c) (hn.2 c)⟩

theorem IsDecimal.ne_point {n : List Char} (h : IsDecimal n) : ∀ c ∈ n, (c != '.') = true := by
  intro c hc
  obtain ⟨-, -, -, hpoint, -⟩ := hexDigit_decimal c (h.2 c hc)
  simpa using hpoint

/-! ### Reals -/

section
variable {cs whole fraction : List Char} {neg : Bool}

/-- A literal without a point stands for its whole number. -/
theorem decimalReal_of_whole (hs : signed cs = (neg, whole)) (hw : IsDecimal whole) :
    decimalReal cs = some (nearest64 neg (decimalValue whole) 1) := by
  have htake : whole.takeWhile (· != '.') = whole := List.takeWhile_eq_self_iff.2 hw.ne_point
  have hdrop : whole.dropWhile (· != '.') = [] := List.dropWhile_eq_nil_iff.2 hw.ne_point
  simp [decimalReal, hs, htake, hdrop, decimalNat_of hw]

/-- A literal with a point stands for its digits over a power of ten. -/
theorem decimalReal_of_fraction (hs : signed cs = (neg, whole ++ '.' :: fraction))
    (hw : IsDecimal whole) (hf : IsDecimal fraction) :
    decimalReal cs =
      some (nearest64 neg (decimalValue (whole ++ fraction)) (10 ^ fraction.length)) := by
  have htake : (whole ++ '.' :: fraction).takeWhile (· != '.') = whole := by
    simp [List.takeWhile_append_of_pos hw.ne_point]
  have hdrop : (whole ++ '.' :: fraction).dropWhile (· != '.') = '.' :: fraction := by
    simp [List.dropWhile_append_of_pos hw.ne_point]
  simp [decimalReal, hs, htake, hdrop, decimalNat_of hw, decimalNat_of hf,
    decimalNat_of (hw.append hf)]

/-- A literal as its digits are written: a whole number, and a fraction if there is one. -/
def realText (whole fraction : List Char) : List Char :=
  whole ++ (if fraction = [] then [] else '.' :: fraction)

theorem decimalReal_of_realText (hs : signed cs = (neg, realText whole fraction))
    (hw : IsDecimal whole) (hf : fraction = [] ∨ IsDecimal fraction) :
    decimalReal cs =
      some (nearest64 neg (decimalValue (whole ++ fraction)) (10 ^ fraction.length)) := by
  obtain rfl | hf := hf
  · simpa using decimalReal_of_whole (by simpa [realText] using hs) hw
  · exact decimalReal_of_fraction (by simpa [realText, hf.1] using hs) hw hf

theorem realText_plain (hw : IsDecimal whole) (hf : fraction = [] ∨ IsDecimal fraction) :
    ∀ c ∈ realText whole fraction, IsPlain c := by
  obtain rfl | hf := hf
  · simpa [realText] using hw.plain
  · have hpoint : IsPlain '.' := by simp [IsPlain, isBracket]
    simpa [realText, hf.1, or_imp, forall_and, hpoint] using ⟨hw.plain, hf.plain⟩

theorem realText_ne (hw : IsDecimal whole) : realText whole fraction ≠ [] := by
  simp [realText, hw.1]

end

/-! ### The lines -/

theorem minus_plain {cs : List Char} (h : ∀ c ∈ cs, IsPlain c) : ∀ c ∈ '-' :: cs, IsPlain c := by
  have hminus : IsPlain '-' := by simp [IsPlain, isBracket]
  simpa [hminus] using h

theorem intLine_of_decimalInt (op : Int → Instr) {word : List Char} {v : Int}
    (h : decimalInt word = some v) (ts : List (List Char)) :
    intLine op (word :: ts) = lineEnd (.literal (op v)) ts := by simp [intLine, h]

theorem realLine_of_decimalReal (op : Binary64 → Instr) {word : List Char} {v : Binary64}
    (h : decimalReal word = some v) (ts : List (List Char)) :
    realLine op (word :: ts) = lineEnd (.literal (op v)) ts := by simp [realLine, h]

/-- Settles O14: the operand is one word, with its sign or without, and is read as the number written. -/
theorem assembledNumbersReadBack : Obligations.AssembledNumbersReadBack := by
  refine ⟨?integers, ?reals⟩
  case integers =>
    intro n last name start op hn hstart hlast
    obtain ⟨hpos, hneg⟩ := decimalInt_of hn
    exact ⟨assembleChars_word hstart.starts hn.1 hn.plain hlast (intLine_of_decimalInt op hpos _),
      assembleChars_word hstart.starts (by simp) (minus_plain hn.plain) hlast
        (intLine_of_decimalInt op hneg _)⟩
  case reals =>
    intro whole fraction last name start op hw hf hstart hlast
    have hplain := realText_plain hw hf
    have hpos := decimalReal_of_realText (signed_decimal hw _) hw hf
    have hneg := decimalReal_of_realText (cs := '-' :: realText whole fraction) rfl hw hf
    exact ⟨assembleChars_word hstart.starts (realText_ne hw) hplain hlast
        (realLine_of_decimalReal op hpos _),
      assembleChars_word hstart.starts (by simp) (minus_plain hplain) hlast
        (realLine_of_decimalReal op hneg _)⟩

end Sys2Proof.Machine
end

section
/-! SUPPORT. What a name stands for as an operand (R72), and O15. -/

namespace Sys2Proof.Machine

/-- A name before the end of its line is no bytes written out: even `zeros` is one only before a bracket. -/
theorem byteLiteral_of_name {n : List Char} (hn : IsName n) {ts : List (List Char)}
    (hts : ts = [] ∨ ∃ m, ts = [['-', '>'], m]) : byteLiteral (n :: ts) = none := by
  rw [byteLiteral.eq_def]
  split
  next rest h =>
    obtain ⟨rfl, -⟩ := List.cons.inj h
    exact absurd (hn.2 '[' (by simp)) (by decide)
  next m rest h =>
    obtain ⟨-, h⟩ := List.cons.inj h
    obtain rfl | ⟨m, rfl⟩ := hts <;> simp at h
  next => rfl

theorem byteLine_of_name (literal : List Byte → Instr) (op : Name → Call) {n : List Char}
    (hn : IsName n) {ts : List (List Char)} (hts : ts = [] ∨ ∃ m, ts = [['-', '>'], m]) :
    byteLine literal op (n :: ts) = lineEnd (op n) ts := by
  rw [byteLine.eq_def, byteLiteral_of_name hn hts]
  cases n with
  | nil => exact absurd rfl hn.1
  | cons c cs =>
    obtain ⟨-, -, hbracket⟩ := hn.2 c (by simp)
    simp [hbracket]

/-- Settles O15: a name is one word and is read as no literal, and a line without an operand is its mnemonic and
its end. -/
theorem assembledNamesAndPlainLines : Obligations.AssembledNamesAndPlainLines := by
  refine ⟨?names, ?plain⟩
  case names =>
    intro n last name start op hn hstart hlast
    obtain ⟨literal, hrow⟩ := hstart.starts
    obtain ⟨ts, hts, -, -, hshape⟩ := lineEnd_of hlast
    exact assembleChars_word hrow hn.1 hn.plain hlast (byteLine_of_name literal op hn (hts ▸ hshape))
  case plain =>
    intro last name start i hstart hlast
    rw [assembleChars_of_row hstart.row (endsWord_lineEnd hlast), lineEnd_tokens hlast]

end Sys2Proof.Machine
end

section
/-! SUPPORT. How a run of request lines goes on and ends (R72, R73), and O53. -/

namespace Sys2Proof.Machine

variable {s t : State} {i : Instr} {l : Line} {names : Names}

/-- The host's operation is the very next move, and its taking leaves the state as it was. -/
theorem issue_eq_exec (i : Instr) (s : State) : issue i s = exec i s :=
  step_of_issue rfl (decodeReadsBackEncode i)

/-- An error ends the run (R73). -/
theorem runLines_of_error (hl : l.call.resolve names = some i) (h : exec i s = .next t)
    {r : Response} (hr : t.response = some r) (herror : r.status ≠ .ok) (ls : List Line) :
    runLines true (l :: ls) names s = some t := by
  simp [runLines, hl, issue_eq_exec, h, State.lastOk, hr, herror]

/-- After a line that ends with OK the rest is run, with the line's result named. -/
theorem runLines_of_ok (hl : l.call.resolve names = some i) (h : exec i s = .next t)
    {v : Result} (hr : t.response = some ⟨.ok, v⟩) (ls : List Line) :
    runLines true (l :: ls) names s = runLines true ls (names.bind l t) t := by
  simp [runLines, hl, issue_eq_exec, h, State.lastOk, hr]

/-- The last line's state is the run's, whatever its status. -/
theorem runLines_last (hl : l.call.resolve names = some i) :
    runLines true [l] names s = nextOf (exec i s) := by
  simp only [runLines, hl, issue_eq_exec]
  cases exec i s with
  | next t => cases hok : t.lastOk <;> simp [nextOf]
  | fault _ => rfl
  | refused _ => rfl

theorem bind_named (c : Call) (n : Name) {B : List Byte}
    (hr : t.response = some ⟨.ok, .bytes B⟩) :
    names.bind (Line.named c n) t = (n, B) :: names := by
  simp [Names.bind, Line.named, hr, Result.asBytes]

/-! ### The expansions -/

/-- The first line of every pseudo-operation (R73). -/
def encoderLine (p : Pseudo) : Line := Line.named (.literal (pseudoEncoder p)) ['p']

theorem expand_poll : Pseudo.poll.expand =
    [encoderLine .poll, Line.named (.sendOf ['p']) ['r'], Line.plain (.decodeOf ['r'])] := rfl

theorem expand_of_ne_poll {p : Pseudo} (h : p ≠ .poll) :
    p.expand = [encoderLine p, Line.plain (.sendOf ['p'])] := by
  cases p with
  | poll => exact absurd rfl h
  | setSpeed _ | setAccel _ | setDecel _ | selectProfile _ | forward | backward | stop => rfl

theorem expand_begins (p : Pseudo) : ∃ ls, p.expand = encoderLine p :: ls := by
  by_cases h : p = .poll
  · exact ⟨_, h ▸ expand_poll⟩
  · exact ⟨_, expand_of_ne_poll h⟩

/-- Settles O53: the encoder's error ends the run; its payload is what the SEND's name stands for, and a
reply to POLL is what the DECODE's name stands for. -/
theorem pseudoOperationsExpand : Obligations.PseudoOperationsExpand := by
  intro p s t r h hr
  refine ⟨?error, ?sent⟩
  case error =>
    intro herror
    obtain ⟨ls, hls⟩ := expand_begins p
    rw [runPseudo, hls]
    exact runLines_of_error (l := encoderLine p) rfl h hr herror ls
  case sent =>
    rintro B rfl
    have hencoder (ls : List Line) :
        runLines true (encoderLine p :: ls) [] s = runLines true ls [(['p'], B)] t := by
      rw [runLines_of_ok (l := encoderLine p) rfl h hr, encoderLine, bind_named _ _ hr]
    refine ⟨?send, ?poll⟩
    case send =>
      intro hp
      rw [runPseudo, expand_of_ne_poll hp, hencoder]
      exact runLines_last rfl
    case poll =>
      rintro rfl u q hu hq
      rw [runPseudo, expand_poll, hencoder]
      refine ⟨fun herror => runLines_of_error rfl hu hq herror _, ?decode⟩
      rintro R rfl
      rw [runLines_of_ok rfl hu hq, bind_named _ _ hq]
      exact runLines_last rfl

end Sys2Proof.Machine
end

section
/-! SUPPORT. The laws of the XOR fold (R102), O17, and the effect of CHECKSUM (R100), O16. -/

namespace Sys2Proof.Machine

theorem xorFold_append (A B : List Byte) : xorFold (A ++ B) = xorFold A ^^^ xorFold B := by
  rw [xorFold, List.foldl_append, foldl_xor_init, ← xorFold]

theorem xorFold_append_self_fold (A : List Byte) : xorFold (A ++ [xorFold A]) = 0x00#8 := by
  rw [xorFold_snoc, BitVec.xor_self]

theorem xorFold_perm {A B : List Byte} (h : A.Perm B) : xorFold A = xorFold B :=
  h.foldl_eq 0x00#8

/-- The old byte is cancelled and the new one folded in (R102). -/
theorem xorFold_set {A : List Byte} {i : Nat} {b : Byte} (h : A[i]? = some b) (b' : Byte) :
    xorFold (A.set i b') = xorFold A ^^^ (b ^^^ b') := by
  induction A generalizing i with
  | nil => simp at h
  | cons a A ih =>
    cases i with
    | zero =>
      obtain rfl : a = b := by simpa using h
      calc xorFold (b' :: A)
          _ = xorFold A ^^^ b' := by rw [xorFold_cons, BitVec.xor_comm]
          _ = xorFold A ^^^ (a ^^^ (a ^^^ b')) := by rw [xor_cancel_left]
          _ = xorFold (a :: A) ^^^ (a ^^^ b') := by rw [xorFold_cons]; ac_rfl
    | succ i =>
      rw [List.getElem?_cons_succ] at h
      rw [List.set_cons_succ, xorFold_cons, xorFold_cons, ih h, BitVec.xor_assoc]

theorem xorFold_set_ne {A : List Byte} {i : Nat} {b b' : Byte} (h : A[i]? = some b) (hb : b ≠ b') :
    xorFold (A.set i b') ≠ xorFold A := by
  rw [xorFold_set h, Ne, xor_left_eq_self_iff, xor_eq_zero_iff]
  exact hb

/-- Two positions changed by one difference: the second change cancels the first (R102). -/
theorem xorFold_set_set {A : List Byte} {i j : Nat} {b c : Byte} (d : Byte) (hij : i ≠ j)
    (hb : A[i]? = some b) (hc : A[j]? = some c) :
    xorFold ((A.set i (b ^^^ d)).set j (c ^^^ d)) = xorFold A := by
  have hc' : (A.set i (b ^^^ d))[j]? = some c := by rw [List.getElem?_set_ne hij, hc]
  rw [xorFold_set hc', xorFold_set hb, xor_cancel_left, xor_cancel_left, xor_cancel_right]

/-- Settles O17, from the fold of a concatenation and of a sequence with one byte replaced. -/
theorem xorFoldLaws : Obligations.XorFoldLaws :=
  ⟨xorFold_append, xorFold_append_self_fold, fun _ _ => xorFold_perm,
    fun _ _ _ b' h => ⟨xorFold_set h b', xorFold_set_ne h⟩,
    fun _ _ _ _ _ d hij hb hc => xorFold_set_set d hij hb hc⟩

theorem exec_checksum (B : List Byte) (s : State) :
    exec (.checksum B) s = .next (s.answer (.byte (xorFold B))) := rfl

/-- Settles O16: the opcode 0x04 decodes to CHECKSUM, whose answer writes the response alone. -/
theorem checksumFoldsBytes : Obligations.ChecksumFoldsBytes :=
  fun s B => ⟨rfl, exec_checksum B s⟩

end Sys2Proof.Machine
end

section
/-! SUPPORT. CONNECT, one equation per outcome (R110, R111, R113), and O18, O19, O20, O21. -/

namespace Sys2Proof.Machine

variable {s : State}

theorem exec_connect_of_connected (hc : s.session.connected = true) :
    exec .connect s = .next (s.raise .alreadyConnected) := by
  simp [exec, execConnect, hc]

theorem exec_connect_of_unconnected (hc : s.session.connected = false) :
    exec .connect s = .next s.handshake := by
  simp [exec, execConnect, hc]

/-! ### The exchange of a handshake -/

theorem handshake_of_writeFails {n : Nat} (hw : s.env.writeAnswer [Config.hsReq] = .ioError n) :
    s.handshake = (s.txWrite [Config.hsReq]).raise .ioError := by
  simp [State.handshake, hw]

theorem handshake_of_writeOk {a : ReadAnswer} (hw : s.env.writeAnswer [Config.hsReq] = .ok)
    (hr : (s.env.afterWrite [Config.hsReq]).readAnswer 1 = a) :
    s.handshake = ((s.txWrite [Config.hsReq]).txRead 1).finishHandshake a := by
  simp [State.handshake, hw, hr]

/-! ### What the reply byte says -/

theorem finishHandshake_ioError : s.finishHandshake .ioError = s.raise .ioError := rfl

theorem finishHandshake_noByte : s.finishHandshake (.ok []) = s.raise .timeout := rfl

theorem finishHandshake_otherByte {b : Byte} (hb : b ≠ Config.hsAck) (R : List Byte) :
    s.finishHandshake (.ok (b :: R)) = s.raise .handshakeRejected := by
  simp [State.finishHandshake, hb]

theorem finishHandshake_ack (R : List Byte) :
    s.finishHandshake (.ok (Config.hsAck :: R)) =
      (s.readTime.openSession s.env.nowValue).answer .empty := by simp [State.finishHandshake]

/-! ### The statements -/

/-- Settles O18: the session is looked at first, and an error writes the response alone. -/
theorem connectWhileConnectedIsError : Obligations.ConnectWhileConnectedIsError :=
  fun _ => exec_connect_of_connected

/-- Settles O20: the row is chosen by the session, then by the answer to the write, then by the reply. -/
theorem connectOutcomeTable : Obligations.ConnectOutcomeTable := by
  refine fun s => ⟨exec_connect_of_connected, fun hc => ?_⟩
  rw [exec_connect_of_unconnected hc]
  refine ⟨?writeFails, fun hw => ⟨?readFails, ?noByte, ?otherByte, ?ack⟩⟩
  case writeFails =>
    intro n hw
    rw [handshake_of_writeFails hw]
    rfl
  case readFails =>
    intro hr
    rw [handshake_of_writeOk hw hr, finishHandshake_ioError]
    rfl
  case noByte =>
    intro hr
    rw [handshake_of_writeOk hw hr, finishHandshake_noByte]
    rfl
  case otherByte =>
    intro b hr hb
    rw [handshake_of_writeOk hw hr, finishHandshake_otherByte hb]
    rfl
  case ack =>
    intro hr
    rw [handshake_of_writeOk hw hr, finishHandshake_ack]
    rfl

/-- Settles O19: the state is the last row of R113, and each of its three primitives adds one event. -/
theorem acceptedHandshakeOpensSession : Obligations.AcceptedHandshakeOpensSession := by
  intro s hc hw hr
  refine ⟨?state, ?history⟩
  case state =>
    obtain ⟨-, hrows⟩ := connectOutcomeTable s
    obtain ⟨-, hsent⟩ := hrows hc
    obtain ⟨-, -, -, hack⟩ := hsent hw
    rw [hack hr]
  case history => simp [hw, hr]

/-- Settles O21: only an accepted handshake ends with OK, and only its history has a time read, which is
its last event. -/
theorem connectReadsTimeOnlyOnSuccess : Obligations.ConnectReadsTimeOnlyOnSuccess := by
  intro s t h
  rcases exec_cases .connect s t h with
    ⟨r, rfl, -, -, hne, -⟩ | ⟨-, -, rfl⟩ | ⟨P, ⟨⟩, -⟩ | ⟨P, ⟨⟩, -⟩
  · exact ⟨[], r, (List.append_nil _).symm, rfl, fun hok => absurd hok (hne rfl), fun _ => rfl⟩
  · rcases handshake_summary s with
      ⟨new, r, htrace, -, hresponse, -, -, hstatus, -, hnew⟩ | ⟨x, htrace, hsession, hresponse, -⟩
    · refine ⟨new, r, htrace, hresponse, fun hok => absurd hstatus (by rw [hok]; decide), fun _ => ?_⟩
      rcases hnew with ⟨a, rfl, -⟩ | ⟨b, rfl, -⟩
      · rfl
      · rfl
    · exact ⟨_, _, htrace, hresponse,
        fun _ => ⟨[.txWrite [0x06#8] .ok], x, rfl, rfl, congrArg Session.epoch hsession⟩,
        fun hne => absurd rfl hne⟩

end Sys2Proof.Machine
end

section
/-! SUPPORT. The outbound frame, part by part (R121, R63), the stamp that ENCODE and SEND give it (R120,
R122), and O24. -/

namespace Sys2Proof.Machine

variable {s t : State} {P : List Byte}

/-! ### The frame as `build_frame` gives it -/

theorem buildFrame_shape (e q : Nat) (hP : P.length = 35) : FrameShape (buildFrame P e q) :=
  frameShape_snoc (by simp [hP]) rfl

/-- Bytes 36..39 of a frame: its stamp, and the fold of what stands before. -/
def frameEnd (P : List Byte) (e q : Nat) : List Byte :=
  [BitVec.ofNat 8 (e % 256), BitVec.ofNat 8 (e / 256), BitVec.ofNat 8 q,
    xorFold ([Config.marker] ++ P ++ le16 e ++ [BitVec.ofNat 8 q])]

theorem buildFrame_eq_append (P : List Byte) (e q : Nat) :
    buildFrame P e q = Config.marker :: P ++ frameEnd P e q := by
  simp [buildFrame, frameEnd, le16]

/-- Bytes 0..35 do not depend on the stamp. -/
theorem buildFrame_take (e q : Nat) (hP : P.length = 35) :
    (buildFrame P e q).take 36 = Config.marker :: P := by
  rw [buildFrame_eq_append, List.take_left' (by simp [hP])]

theorem buildFrame_payload (e q : Nat) (hP : P.length = 35) : ((buildFrame P e q).drop 1).take 35 = P := by
  rw [List.take_drop, buildFrame_take e q hP, List.drop_one, List.tail_cons]

theorem buildFrame_payload_getElem? (e q : Nat) {i : Nat} (hP : P.length = 35) (hi : i < 35) :
    (buildFrame P e q)[i + 1]? = P[i]? := by
  rw [← List.getElem?_take_of_lt (Nat.succ_lt_succ hi), buildFrame_take e q hP, List.getElem?_cons_succ]

theorem buildFrame_getElem?_end (e q i : Nat) (hP : P.length = 35) :
    (buildFrame P e q)[36 + i]? = (frameEnd P e q)[i]? := by
  rw [← List.getElem?_drop, buildFrame_eq_append, List.drop_left' (by simp [hP])]

/-- Settles O24: the shape of a frame, its payload, and the first three bytes of its end. -/
theorem buildFrameLayout : Obligations.BuildFrameLayout := by
  intro P e q hP _ _
  obtain ⟨hlen, hmarker, hsum, -⟩ := buildFrame_shape e q hP
  exact ⟨hlen, hmarker, fun _ hi => buildFrame_payload_getElem? e q hP hi,
    buildFrame_getElem?_end e q 0 hP, buildFrame_getElem?_end e q 1 hP,
    buildFrame_getElem?_end e q 2 hP, hsum⟩

/-- Bytes 36 and 37 are the elapsed time in little-endian order. -/
theorem buildFrame_elapsed {e : Nat} (q : Nat) (hP : P.length = 35) (he : e < 65536) :
    ((buildFrame P e q).getD 36 0).toNat + 256 * ((buildFrame P e q).getD 37 0).toNat = e := by
  rw [List.getD_eq_getElem?_getD, List.getD_eq_getElem?_getD, buildFrame_getElem?_end e q 0 hP,
    buildFrame_getElem?_end e q 1 hP]
  simp only [frameEnd, List.getElem?_cons_zero, List.getElem?_cons_succ, Option.getD_some,
    BitVec.toNat_ofNat]
  omega

theorem buildFrame_sequence (e q : Nat) (hP : P.length = 35) :
    ((buildFrame P e q).getD 38 0).toNat = q % 256 := by
  rw [List.getD_eq_getElem?_getD, buildFrame_getElem?_end e q 2 hP]
  simp [frameEnd]

/-! ### The stamp -/

theorem elapsed_of_epoch {t0 : Int} (h : s.session.epoch = some t0) (x : Int) :
    elapsed s x = ((x - t0) % 65536).toNat := by
  simp [elapsed, Session.epochValue, h]

theorem elapsed_lt (s : State) (x : Int) : elapsed s x < 65536 := by
  unfold elapsed
  omega

theorem elapsed_cast {t0 : Int} (h : s.session.epoch = some t0) (x : Int) :
    (elapsed s x : Int) = (x - t0) % 65536 := by
  rw [elapsed_of_epoch h]
  omega

theorem stampFrame_of_epoch {t0 : Int} (h : s.session.epoch = some t0) (P : List Byte) :
    stampFrame s P =
      buildFrame P ((s.env.nowValue - t0) % 65536).toNat (s.session.sequence % 256) := by
  rw [stampFrame, elapsed_of_epoch h, seqByte]

theorem stampFrame_sequence (s : State) (hP : P.length = 35) :
    ((stampFrame s P).getD 38 0).toNat = s.session.sequence % 256 := by
  rw [stampFrame, buildFrame_sequence _ _ hP, seqByte, Nat.mod_mod]

/-- The frames of one payload stamped before and after a count (R128). -/
theorem stampFrame_consecutive (hP : P.length = 35)
    (hseq : t.session.sequence = s.session.sequence + 1) :
    (stampFrame s P).length = 40 ∧ (stampFrame t P).length = 40 ∧
    (stampFrame s P).take 36 = (stampFrame t P).take 36 ∧
    ((stampFrame t P).getD 38 0).toNat = (((stampFrame s P).getD 38 0).toNat + 1) % 256 := by
  refine ⟨buildFrame_length P _ _ hP, buildFrame_length P _ _ hP, ?payload, ?sequence⟩
  case payload => exact (buildFrame_take _ _ hP).trans (buildFrame_take _ _ hP).symm
  case sequence => rw [stampFrame_sequence t hP, stampFrame_sequence s hP, hseq, Nat.mod_add_mod]

end Sys2Proof.Machine
end

section
/-! SUPPORT. ENCODE and SEND, one equation per outcome (R120, R124, R125), and O22, O23, O25 to O29. -/

namespace Sys2Proof.Machine

variable {s t : State} {P F : List Byte} {i : Instr}

/-! ### The checks -/

theorem frameCheck_of_unconnected (hc : s.session.connected = false) (P : List Byte) :
    frameCheck s P = some .notConnected := by simp [frameCheck, hc]

theorem frameCheck_of_length_ne (hc : s.session.connected = true) (hP : P.length ≠ 35) :
    frameCheck s P = some .invalidPayloadLength := by simp [frameCheck, hc, hP]

theorem exec_frame_of_error {E : Status} (hi : i = .encode P ∨ i = .send P)
    (h : frameCheck s P = some E) : exec i s = .next (s.raise E) := by
  rcases hi with rfl | rfl
  · simp [exec, execEncode, h]
  · simp [exec, execSend, h]

theorem exec_encode_of_passed (hc : s.session.connected = true) (hP : P.length = 35) :
    exec (.encode P) s = .next (s.afterStamp.answer (.bytes (stampFrame s P))) := by
  simp [exec, execEncode, frameCheck_none s P hc hP]

theorem exec_send_of_passed (hc : s.session.connected = true) (hP : P.length = 35) :
    exec (.send P) s = .next (s.afterStamp.exchange (stampFrame s P)) := by
  simp [exec, execSend, frameCheck_none s P hc hP]

/-! ### The exchange -/

theorem exchange_of_writeFails {n : Nat} (hw : s.env.writeAnswer F = .ioError n) :
    s.exchange F = (s.txWrite F).raise .ioError := by
  simp [State.exchange, hw]

theorem exchange_of_readFails (hw : s.env.writeAnswer F = .ok)
    (hr : (s.env.afterWrite F).readAnswer 40 = .ioError) :
    s.exchange F = ((s.txWrite F).txRead 40).raise .ioError := by
  simp [State.exchange, hw, hr]

theorem exchange_of_reply {R : List Byte} (hw : s.env.writeAnswer F = .ok)
    (hr : (s.env.afterWrite F).readAnswer 40 = .ok R) :
    s.exchange F = ((s.txWrite F).txRead 40).answer (.bytes R) := by
  simp [State.exchange, hw, hr]

theorem exchange_session (s : State) (F : List Byte) : (s.exchange F).session = s.session := by
  obtain ⟨-, -, -, hs, -⟩ := exchange_summary s F
  exact hs

/-- Whatever the transport answers, a SEND that passes its checks reads the time, then writes the frame,
and counts it once. -/
theorem exec_send_history (hc : s.session.connected = true) (hP : P.length = 35) :
    ∃ t a rest, exec (.send P) s = .next t ∧
      t.env.trace = s.env.trace ++ .now s.env.nowValue :: .txWrite (stampFrame s P) a :: rest ∧
      t.session = { s.session with sequence := s.session.sequence + 1 } := by
  obtain ⟨new, -, htrace, hsession, -, -, -, -, hnew⟩ :=
    exchange_summary s.afterStamp (stampFrame s P)
  rw [afterStamp_env, afterNow_trace, List.append_assoc] at htrace
  rcases hnew with ⟨a, rfl, -⟩ | ⟨b, rfl, -⟩
  · exact ⟨_, a, [], exec_send_of_passed hc hP, htrace, hsession⟩
  · exact ⟨_, .ok, [.txRead 40 b], exec_send_of_passed hc hP, htrace, hsession⟩

/-- An ENCODE or SEND counts its frame exactly where the checks pass. -/
theorem exec_frame_sequence (hi : i = .encode P ∨ i = .send P) (h : exec i s = .next t) :
    t.session.sequence = s.session.sequence +
      if s.session.connected = true ∧ P.length = 35 then 1 else 0 := by
  rcases frameCheck_cases s P with ⟨hc, hf⟩ | ⟨hc, hP, hf⟩ | ⟨hc, hP, -⟩
  · obtain rfl := Host.Outcome.next.inj ((exec_frame_of_error hi hf).symm.trans h)
    simp [hc]
  · obtain rfl := Host.Outcome.next.inj ((exec_frame_of_error hi hf).symm.trans h)
    simp [hP]
  · rw [if_pos ⟨hc, hP⟩]
    rcases hi with rfl | rfl
    · obtain rfl := Host.Outcome.next.inj ((exec_encode_of_passed hc hP).symm.trans h)
      rfl
    · obtain rfl := Host.Outcome.next.inj ((exec_send_of_passed hc hP).symm.trans h)
      rw [exchange_session, afterStamp_session]

/-! ### The wire, and DECODE of a short reply -/

/-- The wire grows by what the new events put on it. -/
theorem wire_of_trace {d e : Env} {new : List Event} (h : e.trace = d.trace ++ new) :
    e.wire = d.wire ++ new.flatMap Event.onWire := by
  rw [Env.wire, h, List.flatMap_append, Env.wire]

theorem exec_decode_of_length_ne (s : State) (hF : F.length ≠ 40) :
    exec (.decode F) s = .next (s.raise .invalidFrameLength) := by
  simp [exec, execDecode, hF]

/-! ### The statements -/

/-- Settles O22: each error writes the response alone; the frame is stamped with the epoch's distance. -/
theorem encodeBuildsStampedFrame : Obligations.EncodeBuildsStampedFrame := by
  refine fun s P => ⟨rfl, ?unconnected, ?badLength, ?built⟩
  case unconnected => exact fun hc => exec_frame_of_error (.inl rfl) (frameCheck_of_unconnected hc P)
  case badLength => exact fun hc hP => exec_frame_of_error (.inl rfl) (frameCheck_of_length_ne hc hP)
  case built =>
    intro t0 hc h0 hP
    rw [exec_encode_of_passed hc hP, stampFrame_of_epoch h0]
    rfl

/-- Settles O23: the checks of ENCODE, then one equation per outcome of the exchange. -/
theorem sendTransmitsAndReadsReply : Obligations.SendTransmitsAndReadsReply := by
  refine fun s P => ⟨rfl, ?unconnected, ?badLength, ?sent⟩
  case unconnected => exact fun hc => exec_frame_of_error (.inr rfl) (frameCheck_of_unconnected hc P)
  case badLength => exact fun hc hP => exec_frame_of_error (.inr rfl) (frameCheck_of_length_ne hc hP)
  case sent =>
    intro t0 hc h0 hP
    rw [exec_send_of_passed hc hP, stampFrame_of_epoch h0]
    exact ⟨fun n hw => congrArg _ (exchange_of_writeFails (s := s.afterStamp) hw), fun hw =>
      ⟨fun hr => congrArg _ (exchange_of_readFails (s := s.afterStamp) hw hr),
        fun R hr => congrArg _ (exchange_of_reply (s := s.afterStamp) hw hr)⟩⟩

/-- Settles O25: both operations build the stamped frame, which has a frame's shape, the payload in its
place and the stamp after it. -/
theorem builtFramesHaveTheirProperties : Obligations.BuiltFramesHaveTheirProperties := by
  intro s P t0 hc h0 hP
  obtain ⟨hlen, hmarker, hsum, hfold⟩ := stampFrame_shape (s := s) hP
  obtain ⟨t, a, rest, ht, htrace, -⟩ := exec_send_history hc hP
  refine ⟨stampFrame s P, hlen, hmarker, hsum, hfold, buildFrame_payload _ _ hP, ?elapsed,
    stampFrame_sequence s hP, ⟨_, exec_encode_of_passed hc hP, rfl⟩, ⟨t, a, rest, ht, htrace⟩⟩
  rw [← elapsed_cast h0, stampFrame, buildFrame_elapsed _ hP (elapsed_lt s _)]

/-- Settles O26: of the other operations only a handshake touches the session, and it keeps the
sequence. -/
theorem sequenceCountsEachFrameOnce : Obligations.SequenceCountsEachFrameOnce := by
  refine fun i s t h => ⟨fun P hi => exec_frame_sequence hi h, fun hother => ?_⟩
  rcases exec_cases i s t h with ⟨r, rfl, -⟩ | ⟨-, -, rfl⟩ | ⟨P, hi, -⟩ | ⟨P, hi, -⟩
  · rfl
  · rcases handshake_summary s with ⟨-, -, -, hs, -⟩ | ⟨x, -, hs, -⟩ <;> rw [hs]
  · exact absurd hi (hother P).1
  · exact absurd hi (hother P).2

/-- Settles O27: the exchange ends after its write, or after its read; the wire follows from the history. -/
theorem failedSendKeepsItsCount : Obligations.FailedSendKeepsItsCount := by
  intro s P hc hP
  have hF : (stampFrame s P).length = 40 := buildFrame_length P _ _ hP
  refine ⟨fun n hw => ?writeFails, fun hw hr => ?readFails⟩
  case writeFails =>
    have htrace : (s.env.afterNow.afterWrite (stampFrame s P)).trace = s.env.trace ++
        [.now s.env.nowValue, .txWrite (stampFrame s P) (.ioError n)] := by simp [hw]
    refine ⟨_, (exec_send_of_passed hc hP).trans
      (congrArg _ (exchange_of_writeFails (s := s.afterStamp) hw)), rfl, rfl,
      hF ▸ writeAnswer_sent _ _ _ hw, (wire_of_trace htrace).trans ?_, htrace⟩
    simp [Event.onWire]
  case readFails =>
    have htrace : ((s.env.afterNow.afterWrite (stampFrame s P)).afterRead 40).trace = s.env.trace ++
        [.now s.env.nowValue, .txWrite (stampFrame s P) .ok, .txRead 40 .ioError] := by simp [hw, hr]
    refine ⟨_, (exec_send_of_passed hc hP).trans
      (congrArg _ (exchange_of_readFails (s := s.afterStamp) hw hr)), rfl, rfl,
      (wire_of_trace htrace).trans ?_, htrace⟩
    simp [Event.onWire]

/-- Settles O28: the answer to a read is within the 40 bytes asked for and returned as it came. -/
theorem shortReplyIsReturned : Obligations.ShortReplyIsReturned := by
  intro s P R hc hP hw hr
  exact ⟨readAnswer_length _ _ _ hr, _, (exec_send_of_passed hc hP).trans
    (congrArg _ (exchange_of_reply (s := s.afterStamp) hw hr)), rfl,
    fun hR => exec_decode_of_length_ne _ hR.ne⟩

/-- Settles O29: each of two operations stamps the payload anew and leaves the session open. -/
theorem consecutiveFramesDiffer : Obligations.ConsecutiveFramesDiffer := by
  refine fun s P hc hP => ⟨?encodes, ?sends⟩
  case encodes =>
    obtain ⟨hF, hG, htake, hseq⟩ := stampFrame_consecutive (s := s) (t := s.afterStamp.answer _) hP rfl
    exact ⟨_, _, _, _, exec_encode_of_passed hc hP, rfl, exec_encode_of_passed hc hP, rfl,
      hF, hG, htake, hseq, rfl⟩
  case sends =>
    obtain ⟨t, a, rest, ht, htrace, hs⟩ := exec_send_history hc hP
    obtain ⟨u, b, rest', hu, hutrace, hus⟩ := exec_send_history (s := t) (by rw [hs, hc]) hP
    obtain ⟨hF, hG, htake, hseq⟩ := stampFrame_consecutive (s := s) (t := t) hP (by rw [hs])
    exact ⟨t, u, _, _, _, _, a, b, rest, rest', ht, hu, htrace, hutrace, hF, hG, htake, hseq,
      by rw [hus, hs]⟩

end Sys2Proof.Machine
end

section
/-! SUPPORT. The builder of a parameterised payload, part by part (R142, R141), and O32. -/

namespace Sys2Proof.Machine

/-! ### Patching -/

section Patching

variable {B : List Byte} {W : List (Nat × Byte)} {i n : Nat}

theorem patchBytes_cons (B : List Byte) (w : Nat × Byte) (W : List (Nat × Byte)) :
    patchBytes B (w :: W) = patchBytes (B.set w.1 w.2) W := rfl

theorem patchBytes_pair (B : List Byte) (v w : Nat × Byte) :
    patchBytes B [v, w] = (B.set v.1 v.2).set w.1 w.2 := rfl

theorem patchBytes_getElem?_of_not_mem (h : i ∉ W.map Prod.fst) : (patchBytes B W)[i]? = B[i]? := by
  induction W generalizing B with
  | nil => rfl
  | cons w W ih =>
    rw [List.map_cons, List.mem_cons, not_or] at h
    rw [patchBytes_cons, ih h.2, List.getElem?_set_ne (Ne.symm h.1)]

/-- With distinct indices no later pair overwrites an earlier one. -/
theorem patchBytes_getElem?_of_mem {w : Nat × Byte} (hW : (W.map Prod.fst).Nodup) (hw : w ∈ W)
    (hlt : w.1 < B.length) : (patchBytes B W)[w.1]? = some w.2 := by
  induction W generalizing B with
  | nil => cases hw
  | cons v W ih =>
    obtain ⟨hv, hW⟩ := List.nodup_cons.mp hW
    rw [patchBytes_cons]
    rcases List.mem_cons.mp hw with rfl | hw
    · rw [patchBytes_getElem?_of_not_mem hv, List.getElem?_set_self hlt]
    · exact ih hW hw (by rwa [List.length_set])

theorem patchBytes_take (h : ∀ w ∈ W, n ≤ w.1) : (patchBytes B W).take n = B.take n := by
  induction W generalizing B with
  | nil => rfl
  | cons w W ih =>
    obtain ⟨hw, hW⟩ := List.forall_mem_cons.mp h
    rw [patchBytes_cons, ih hW, List.take_set_of_le hw]

end Patching

/-! ### The class header, the patched template, and what follows them -/

/-- The bytes of a parameterised payload before its local checksum: B of R142 after its loop. -/
def paramBody (tpl : List Byte) (W : List (Nat × Byte)) : List Byte :=
  patchBytes (Config.classHdr ++ tpl) W

theorem paramBody_of_not_mem {tpl : List Byte} {W : List (Nat × Byte)} {i : Nat} (hi : 3 ≤ i)
    (hW : i ∉ W.map Prod.fst) : (paramBody tpl W)[i]? = tpl[i - 3]? := by
  rw [paramBody, patchBytes_getElem?_of_not_mem hW, List.getElem?_append_right hi]
  rfl

/-- What R142 and R8 ask of the builder's arguments. -/
structure ParamArgs (k : Nat) (tpl : List Byte) (W : List (Nat × Byte)) : Prop where
  four_le : 4 ≤ k
  le_34 : k ≤ 34
  tpl_length : tpl.length = k - 3
  inBody : ∀ w ∈ W, 3 ≤ w.1 ∧ w.1 ≤ k - 1
  nodup : (W.map Prod.fst).Nodup

namespace ParamArgs

variable {sum : LocalSum} {k i : Nat} {tpl : List Byte} {W : List (Nat × Byte)}

theorem body_length (h : ParamArgs k tpl W) : (paramBody tpl W).length = k := by
  have := h.four_le
  simp [paramBody, h.tpl_length]
  omega

theorem body_header (h : ParamArgs k tpl W) : (paramBody tpl W).take 3 = Config.classHdr := by
  rw [paramBody, patchBytes_take fun w hw => (h.inBody w hw).1]
  rfl

theorem body_patched (h : ParamArgs k tpl W) {w : Nat × Byte} (hw : w ∈ W) :
    (paramBody tpl W)[w.1]? = some w.2 := by
  refine patchBytes_getElem?_of_mem h.nodup hw ?_
  have := h.inBody w hw
  have := h.four_le
  rw [List.length_append, h.tpl_length, show Config.classHdr.length = 3 from rfl]
  omega

theorem buildParam_eq (h : ParamArgs k tpl W) : buildParam sum tpl k W =
    paramBody tpl W ++ localSum sum ((paramBody tpl W).drop 3) :: zeros (34 - k) := by
  have hslice : slice (paramBody tpl W) 3 k = (paramBody tpl W).drop 3 :=
    List.take_of_length_le (by rw [List.length_drop, h.body_length])
  rw [buildParam, ← paramBody, hslice, List.append_assoc, List.singleton_append]

theorem length_eq (h : ParamArgs k tpl W) : (buildParam sum tpl k W).length = 35 :=
  buildParam_length sum tpl k W ⟨h.four_le, h.le_34⟩ h.tpl_length

theorem take_eq (h : ParamArgs k tpl W) : (buildParam sum tpl k W).take k = paramBody tpl W := by
  rw [h.buildParam_eq, List.take_left' h.body_length]

theorem getElem?_of_lt (h : ParamArgs k tpl W) (hi : i < k) :
    (buildParam sum tpl k W)[i]? = (paramBody tpl W)[i]? := by
  rw [← h.take_eq (sum := sum), List.getElem?_take_of_lt hi]

theorem header (h : ParamArgs k tpl W) : (buildParam sum tpl k W).take 3 = Config.classHdr := by
  rw [← h.body_header, ← h.take_eq (sum := sum), List.take_take,
    min_eq_left (Nat.le_of_succ_le h.four_le)]

theorem patched (h : ParamArgs k tpl W) {w : Nat × Byte} (hw : w ∈ W) :
    (buildParam sum tpl k W)[w.1]? = some w.2 := by
  have := h.inBody w hw
  have := h.four_le
  rw [h.getElem?_of_lt (by omega), h.body_patched hw]

theorem getElem?_sum (h : ParamArgs k tpl W) :
    (buildParam sum tpl k W)[k]? = some (localSum sum ((paramBody tpl W).drop 3)) := by
  rw [h.buildParam_eq, List.getElem?_append_right h.body_length.le, h.body_length, Nat.sub_self,
    List.getElem?_cons_zero]

theorem getElem?_of_gt (h : ParamArgs k tpl W) (hi : k < i) :
    (buildParam sum tpl k W)[i]? = (zeros (34 - k))[i - k - 1]? := by
  obtain ⟨j, rfl⟩ := Nat.exists_eq_add_of_lt hi
  rw [h.buildParam_eq, List.getElem?_append_right (by rw [h.body_length]; omega), h.body_length,
    show k + j + 1 - k = j + 1 by omega, List.getElem?_cons_succ, Nat.add_sub_cancel]

theorem zero_of_gt (h : ParamArgs k tpl W) (hi : k < i) (hi' : i < 35) :
    (buildParam sum tpl k W)[i]? = some 0x00#8 := by
  rw [h.getElem?_of_gt hi, zeros, List.getElem?_replicate, if_pos (by omega)]

/-- R141: with the XOR fold as local checksum, the body and the checksum fold to zero. -/
theorem xorFold_cancels (h : ParamArgs k tpl W) :
    xorFold (((buildParam .xorFold tpl k W).take (k + 1)).drop 3) = 0x00#8 := by
  have hlong : 3 ≤ (paramBody tpl W).length := h.body_length ▸ Nat.le_of_succ_le h.four_le
  rw [List.take_add_one, h.take_eq, h.getElem?_sum, List.drop_append_of_le_length hlong]
  exact xorFold_append_self_fold _

end ParamArgs

/-- Settles O32: the body up to K, the checksum at K, and the zeros after it. -/
theorem buildParamLayout : Obligations.BuildParamLayout := by
  intro sum tpl k W hk hk' htpl hin hW
  have h : ParamArgs k tpl W := ⟨hk, hk', htpl, hin, hW⟩
  refine ⟨h.length_eq, h.header, fun w => h.patched, ?template, ?checksum, fun i => h.zero_of_gt⟩
  case template =>
    intro i hi hik hiW
    rw [h.getElem?_of_lt hik, paramBody_of_not_mem hi hiW]
  case checksum => rw [h.take_eq, h.getElem?_sum]

end Sys2Proof.Machine
end

section
/-! SUPPORT. Which operands pass the ramp-time check, read off their bits (R11, R146), and O37. -/

namespace Sys2Proof.Machine

/-- The magnitude of the binary64 bit pattern n without a sign, in units: its fraction where the exponent is
0, and otherwise its fraction with the leading bit, moved up by the exponent. -/
def magnitude (n : Nat) : Nat :=
  if n / 2 ^ 52 = 0 then n % 2 ^ 52 else (2 ^ 52 + n % 2 ^ 52) * 2 ^ (n / 2 ^ 52 - 1)

theorem magnitude_of_exponent_zero {f : Nat} (hf : f < 2 ^ 52) : magnitude f = f := by
  rw [magnitude, if_pos (Nat.div_eq_of_lt hf), Nat.mod_eq_of_lt hf]

theorem magnitude_of_exponent_succ (e : Nat) {f : Nat} (hf : f < 2 ^ 52) :
    magnitude (2 ^ 52 * (e + 1) + f) = (2 ^ 52 + f) * 2 ^ e := by
  have hdiv : (2 ^ 52 * (e + 1) + f) / 2 ^ 52 = e + 1 := by omega
  have hmod : (2 ^ 52 * (e + 1) + f) % 2 ^ 52 = f := by omega
  rw [magnitude, hdiv, hmod, if_neg (Nat.succ_ne_zero e), Nat.add_sub_cancel]

/-- The order of the bit patterns is the order of the magnitudes: the next pattern has the next fraction, or
the next exponent with fraction 0. -/
theorem magnitude_strictMono : StrictMono magnitude := by
  refine strictMono_nat_of_lt_succ fun n => ?_
  obtain ⟨e, f, hf, rfl⟩ : ∃ e f, f < 2 ^ 52 ∧ n = 2 ^ 52 * e + f :=
    ⟨n / 2 ^ 52, n % 2 ^ 52, Nat.mod_lt _ (by norm_num), (Nat.div_add_mod n _).symm⟩
  by_cases hcarry : f + 1 < 2 ^ 52
  · cases e with
    | zero =>
      rw [Nat.mul_zero, Nat.zero_add, magnitude_of_exponent_zero hf, magnitude_of_exponent_zero hcarry]
      exact Nat.lt_succ_self f
    | succ e =>
      rw [Nat.add_assoc, magnitude_of_exponent_succ e hf, magnitude_of_exponent_succ e hcarry]
      exact Nat.mul_lt_mul_of_pos_right (by omega) (Nat.two_pow_pos e)
  · have hnext : 2 ^ 52 * e + f + 1 = 2 ^ 52 * (e + 1) + 0 := by omega
    rw [hnext, magnitude_of_exponent_succ e (Nat.two_pow_pos 52)]
    cases e with
    | zero =>
      rw [Nat.mul_zero, Nat.zero_add, magnitude_of_exponent_zero hf]
      omega
    | succ e =>
      calc magnitude (2 ^ 52 * (e + 1) + f)
          _ = (2 ^ 52 + f) * 2 ^ e := magnitude_of_exponent_succ e hf
          _ < (2 ^ 52 + 2 ^ 52) * 2 ^ e :=
            Nat.mul_lt_mul_of_pos_right (Nat.add_lt_add_left hf _) (Nat.two_pow_pos e)
          _ = (2 ^ 52 + 0) * 2 ^ (e + 1) := by ring

/-! ### The view of a bit pattern -/

theorem signBit_eq (x : Binary64) : x.getLsbD 63 = decide (2 ^ 63 ≤ x.toNat) :=
  (BitVec.msb_eq_getLsbD_last x).symm.trans (BitVec.msb_eq_decide x)

theorem exponentBits_eq (x : Binary64) : (x.extractLsb' 52 11).toNat = x.toNat / 2 ^ 52 % 2 ^ 11 := by
  rw [BitVec.extractLsb'_toNat, Nat.shiftRight_eq_div_pow]

theorem fractionBits_eq (x : Binary64) : (x.extractLsb' 0 52).toNat = x.toNat % 2 ^ 52 := by
  rw [BitVec.extractLsb'_toNat, Nat.shiftRight_zero]

/-- The values with a clear sign that are finite: the bit patterns below that of the infinity. -/
theorem view_eq_finite_false_iff {x : Binary64} {u : Nat} :
    view x = .finite false u ↔ x.toNat < 2047 * 2 ^ 52 ∧ magnitude x.toNat = u := by
  have hx := x.isLt
  unfold view magnitude
  rw [signBit_eq, exponentBits_eq, fractionBits_eq]
  by_cases hsign : 2 ^ 63 ≤ x.toNat
  · have hlarge : ¬ x.toNat < 2047 * 2 ^ 52 := by omega
    simp only [hsign, hlarge, decide_true, false_and, iff_false]
    split_ifs <;> simp
  · have hexp : x.toNat / 2 ^ 52 % 2 ^ 11 = x.toNat / 2 ^ 52 := by omega
    have hinf : x.toNat / 2 ^ 52 = 2047 ↔ ¬ x.toNat < 2047 * 2 ^ 52 := by omega
    simp only [hsign, hexp, hinf, decide_false]
    by_cases hfinite : x.toNat < 2047 * 2 ^ 52
    · simp only [hfinite, not_true_eq_false, if_false, true_and]
      split_ifs <;> simp
    · simp only [hfinite, not_false_eq_true, if_true, false_and, iff_false]
      split_ifs <;> simp

/-! ### The check -/

theorem oneUnits_pos : 0 < oneUnits := by decide +kernel

theorem halfUnits_pos : 0 < oneUnits / 2 := by decide +kernel

/-- What passes the check is finite, with a clear sign, and between the two bounds. -/
theorem rampInDomain_iff {x : Binary64} : rampInDomain x = true ↔
    ∃ u, view x = .finite false u ∧ oneUnits / 2 ≤ u ∧ u ≤ 15 * oneUnits := by
  have hpos := halfUnits_pos
  unfold rampInDomain half64 fifteen64
  generalize oneUnits / 2 = low, 15 * oneUnits = high at *
  match view x with
  | .nan => simp [le64]
  | .inf neg => cases neg <;> simp [le64]
  | .finite true u =>
    have hneg : ¬ (low : Int) ≤ -(u : Int) := by omega
    simp [le64, signedUnits, hneg]
  | .finite false u => simp [le64, signedUnits]

theorem magnitude_half : magnitude 0x3FE0000000000000 = oneUnits / 2 := by decide +kernel

theorem magnitude_fifteen : magnitude 0x402E000000000000 = 15 * oneUnits := by decide +kernel

/-- Settles O37: magnitudes are ordered as their bits, and the bounds are the magnitudes of two bit
patterns. -/
theorem rampDomainIsBitRange : Obligations.RampDomainIsBitRange := by
  intro x
  have hlow : 0x3FE0000000000000 ≤ x.toNat ↔ oneUnits / 2 ≤ magnitude x.toNat := by
    rw [← magnitude_half, magnitude_strictMono.le_iff_le]
  have hhigh : x.toNat ≤ 0x402E000000000000 ↔ magnitude x.toNat ≤ 15 * oneUnits := by
    rw [← magnitude_fifteen, magnitude_strictMono.le_iff_le]
  rw [rampInDomain_iff, hlow, hhigh]
  constructor
  · rintro ⟨u, hu, h⟩
    obtain ⟨-, rfl⟩ := view_eq_finite_false_iff.mp hu
    exact h
  · refine fun h => ⟨_, view_eq_finite_false_iff.mpr ⟨?_, rfl⟩, h⟩
    have := hhigh.mpr h.2
    omega

end Sys2Proof.Machine
end

section
/-! SUPPORT. Rounding to binary64, and the ramp byte (R11, R147), O38 and O39. -/

namespace Sys2Proof.Machine

/-! ### Rounding to a grid -/

section Rounding

variable {n m d g k : Nat}

theorem roundEven_mul_left (hk : 0 < k) (n d : Nat) : roundEven (k * n) (k * d) = roundEven n d := by
  have hgt : 2 * (k * (n % d)) > k * d ↔ 2 * (n % d) > d := by
    rw [Nat.mul_left_comm, gt_iff_lt, Nat.mul_lt_mul_left hk]
  have heq : 2 * (k * (n % d)) = k * d ↔ 2 * (n % d) = d := by
    rw [Nat.mul_left_comm, Nat.mul_right_inj hk.ne']
  simp only [roundEven, Nat.mul_mod_mul_left, Nat.mul_div_mul_left n d hk, hgt, heq]

/-- Rounding goes to one of the two neighbours, and up only from the middle on. -/
theorem roundEven_cases (n d : Nat) :
    (roundEven n d = n / d ∧ 2 * (n % d) ≤ d) ∨ (roundEven n d = n / d + 1 ∧ d ≤ 2 * (n % d)) := by
  unfold roundEven
  split
  · exact .inr ⟨rfl, by omega⟩
  · exact .inl ⟨rfl, by omega⟩

theorem div_le_roundEven (n d : Nat) : n / d ≤ roundEven n d := by
  rcases roundEven_cases n d with ⟨h, -⟩ | ⟨h, -⟩ <;> rw [h]
  exact Nat.le_succ _

theorem roundEven_le_div_succ (n d : Nat) : roundEven n d ≤ n / d + 1 := by
  rcases roundEven_cases n d with ⟨h, -⟩ | ⟨h, -⟩ <;> rw [h]
  exact Nat.le_succ _

theorem roundEven_mul_le (n d : Nat) : 2 * (roundEven n d * d) ≤ 2 * n + d := by
  have hn := Nat.div_add_mod' n d
  rcases roundEven_cases n d with ⟨h, -⟩ | ⟨h, hup⟩ <;> rw [h]
  · omega
  · rw [Nat.add_mul, Nat.one_mul]
    omega

theorem roundEven_mono (h : n ≤ m) (d : Nat) : roundEven n d ≤ roundEven m d := by
  rcases (Nat.div_le_div_right (c := d) h).lt_or_eq with hlt | heq
  · exact (roundEven_le_div_succ n d).trans (hlt.trans_le (div_le_roundEven m d))
  · have hmod : n % d ≤ m % d := by
      rw [Nat.mod_eq_sub_div_mul, Nat.mod_eq_sub_div_mul, heq]
      exact Nat.sub_le_sub_right h _
    unfold roundEven
    rw [heq]
    split_ifs <;> omega

theorem roundEven_self_mul (hd : 0 < d) (c : Nat) : roundEven (d * c) d = c := by
  rcases roundEven_cases (d * c) d with ⟨h, -⟩ | ⟨-, hup⟩
  · rw [h, Nat.mul_div_cancel_left c hd]
  · rw [Nat.mul_mod_right] at hup
    omega

/-! ### Rounding to 53 significant bits -/

/-- The spacing of the 53-bit numbers about n. -/
def spacing (n : Nat) : Nat := 2 ^ (bitLength n - 53)

/-- `n` units rounded to a value of the format. -/
def round53 (n : Nat) : Nat := roundEven n (spacing n) * spacing n

theorem roundUnits_oneUnits (n : Nat) : roundUnits (n * oneUnits) oneUnits = round53 n := by
  rw [roundUnits, Nat.mul_div_cancel n oneUnits_pos, Nat.mul_comm n oneUnits,
    roundEven_mul_left oneUnits_pos]
  rfl

theorem spacing_pos (n : Nat) : 0 < spacing n := Nat.two_pow_pos _

theorem bitLength_eq_size (n : Nat) : bitLength n = n.size := by
  refine eq_of_forall_ge_iff fun k => ?_
  rw [Nat.size_le, bitLength]
  split
  next h => simp [h]
  next h => rw [Nat.succ_le_iff, Nat.log2_lt h]

theorem spacing_dvd_two_pow (h : n < 2 ^ (k + 53)) : spacing n ∣ 2 ^ k := by
  rw [spacing, bitLength_eq_size]
  exact Nat.pow_dvd_pow 2 (Nat.sub_le_of_le_add (Nat.size_le.mpr h))

/-- Rounding moves a number by at most half the spacing. -/
theorem round53_le_add (h : n < 2 ^ (k + 1 + 53)) : round53 n ≤ n + 2 ^ k := by
  have hspacing : spacing n ≤ 2 ^ (k + 1) :=
    Nat.le_of_dvd (Nat.two_pow_pos _) (spacing_dvd_two_pow h)
  have hround : 2 * round53 n ≤ 2 * n + spacing n := roundEven_mul_le n (spacing n)
  rw [Nat.pow_succ] at hspacing
  omega

theorem round53_le (hg : spacing n ∣ g) (h : n ≤ g) : round53 n ≤ g := by
  obtain ⟨c, rfl⟩ := hg
  have hc := roundEven_mono h (spacing n)
  rw [roundEven_self_mul (spacing_pos n)] at hc
  rw [round53, Nat.mul_comm]
  exact Nat.mul_le_mul_left _ hc

theorem le_round53 (hg : spacing n ∣ g) (h : g ≤ n) : g ≤ round53 n := by
  obtain ⟨c, rfl⟩ := hg
  have hc := roundEven_mono h (spacing n)
  rw [roundEven_self_mul (spacing_pos n)] at hc
  rw [round53, Nat.mul_comm]
  exact Nat.mul_le_mul_right _ hc

/-- Between numbers of one length the spacing is one; between two lengths stands a power of two, which is on
both grids. -/
theorem round53_mono (h : n ≤ m) : round53 n ≤ round53 m := by
  rcases (Nat.size_le_size h).lt_or_eq with hlt | heq
  · have hn : n ≤ 2 ^ (m.size - 1) := (Nat.size_le.mp (by omega)).le
    have hm : 2 ^ (m.size - 1) ≤ m := Nat.lt_size.mp (by omega)
    refine (round53_le ?_ hn).trans (le_round53 ?_ hm)
    · rw [spacing, bitLength_eq_size]
      exact Nat.pow_dvd_pow 2 (by omega)
    · rw [spacing, bitLength_eq_size]
      exact Nat.pow_dvd_pow 2 (by omega)
  · have hs : spacing n = spacing m := by rw [spacing, spacing, bitLength_eq_size, bitLength_eq_size, heq]
    rw [round53, round53, hs]
    exact Nat.mul_le_mul_right _ (roundEven_mono h _)

end Rounding

/-! ### The ten-fold value of an operand -/

section Tenths

variable {x : Binary64} {u : Nat}

/-- Ten times 0.5 to ten times 15.0, in units. -/
theorem ten_mul_bounds (hx : rampInDomain x = true) (hu : view x = .finite false u) :
    5 * oneUnits ≤ 10 * u ∧ 10 * u ≤ 150 * oneUnits := by
  obtain ⟨v, hv, hlow, hhigh⟩ := rampInDomain_iff.mp hx
  obtain ⟨-, rfl⟩ := Real64.finite.inj (hu.symm.trans hv)
  have heven : oneUnits / 2 * 2 = oneUnits := by decide +kernel
  omega

/-- Every whole number of tenths is on the grid to which the product is rounded. -/
theorem spacing_dvd_mul_oneUnits {n : Nat} (h : n ≤ 150 * oneUnits) (c : Nat) :
    spacing n ∣ c * oneUnits := by
  have hlt : n < 2 ^ (1029 + 53) := h.trans_lt (by decide +kernel)
  have hone : 2 ^ 1029 ∣ oneUnits := by decide +kernel
  exact ((spacing_dvd_two_pow hlt).trans hone).mul_left c

theorem fmul64_finite (p q : Bool) (a b : Nat) : fmul64 (.finite p a) (.finite q b) =
    finiteOrInf (p ^^ q) (roundUnits (a * b) oneUnits) := rfl

theorem tenths_eq (hx : rampInDomain x = true) (hu : view x = .finite false u) :
    tenths x = round53 (10 * u) / oneUnits := by
  obtain ⟨-, hhigh⟩ := ten_mul_bounds hx hu
  have hfinite : round53 (10 * u) < overflowUnits :=
    (round53_le (spacing_dvd_mul_oneUnits hhigh 150) hhigh).trans_lt (by decide +kernel)
  have hproduct : fmul64 (.finite false u) ten64 = .finite false (round53 (10 * u)) := by
    rw [ten64, fmul64_finite, Nat.mul_left_comm, ← Nat.mul_assoc, roundUnits_oneUnits, finiteOrInf,
      if_pos hfinite, Bool.xor_false]
  rw [tenths, hu, hproduct]
  rfl

theorem le_tenths (hx : rampInDomain x = true) (hu : view x = .finite false u) {c : Nat}
    (hc : c * oneUnits ≤ 10 * u) : c ≤ tenths x := by
  obtain ⟨-, hhigh⟩ := ten_mul_bounds hx hu
  rw [tenths_eq hx hu, Nat.le_div_iff_mul_le oneUnits_pos]
  exact le_round53 (spacing_dvd_mul_oneUnits hhigh c) hc

theorem tenths_le (hx : rampInDomain x = true) (hu : view x = .finite false u) {c : Nat}
    (hc : 10 * u ≤ c * oneUnits) : tenths x ≤ c := by
  obtain ⟨-, hhigh⟩ := ten_mul_bounds hx hu
  rw [tenths_eq hx hu, ← Nat.lt_succ_iff, Nat.div_lt_iff_lt_mul oneUnits_pos]
  exact (round53_le (spacing_dvd_mul_oneUnits hhigh c) hc).trans_lt
    (Nat.mul_lt_mul_of_pos_right (Nat.lt_succ_self c) oneUnits_pos)

theorem tenths_range (hx : rampInDomain x = true) : 5 ≤ tenths x ∧ tenths x ≤ 150 := by
  obtain ⟨u, hu, -⟩ := rampInDomain_iff.mp hx
  obtain ⟨hlow, hhigh⟩ := ten_mul_bounds hx hu
  exact ⟨le_tenths hx hu hlow, tenths_le hx hu hhigh⟩

end Tenths

/-! ### The statements -/

/-- R147: "checked by evaluating all 146 values". The rounding of k/10 and the rounding of its product cancel
for these values, not for a reason that holds at every spacing. -/
theorem tenths_nearest : ∀ k < 151, 5 ≤ k → tenths (nearest64 false k 10) = k := by decide +kernel

/-- Settles O38: the range from the bounds of the domain, the rest by evaluation. -/
theorem tenthsTruncates : Obligations.TenthsTruncates :=
  ⟨fun _ => tenths_range, fun k hk hk' => tenths_nearest k (Nat.lt_succ_of_le hk') hk,
    by decide +kernel, by decide +kernel, by decide +kernel⟩

/-- Settles O39: whole tenths are on the grid of the rounding, and rounding keeps the order. -/
theorem tenthsFollowsExactProduct : Obligations.TenthsFollowsExactProduct := by
  refine ⟨fun x u hx hu => ?follows, fun x y hx hy hxy => ?grows⟩
  case follows =>
    obtain ⟨-, hhigh⟩ := ten_mul_bounds hx hu
    have hlt : 10 * u < 2 ^ (1028 + 1 + 53) := hhigh.trans_lt (by decide +kernel)
    have hfloor : tenths x * oneUnits ≤ round53 (10 * u) := by
      rw [tenths_eq hx hu]
      exact Nat.div_mul_le_self _ _
    have hnext (n : Nat) : n < (n / oneUnits + 1) * oneUnits :=
      (Nat.div_lt_iff_lt_mul oneUnits_pos).mp (Nat.lt_succ_self _)
    have hceil : round53 (10 * u) < (tenths x + 1) * oneUnits := by
      rw [tenths_eq hx hu]
      exact hnext _
    rw [← oneUnits, roundUnits_oneUnits]
    exact ⟨⟨hfloor, hceil⟩, le_tenths hx hu (Nat.div_mul_le_self _ _), tenths_le hx hu (hnext _).le,
      hfloor.trans (round53_le_add hlt)⟩
  case grows =>
    obtain ⟨u, hu, -⟩ := rampInDomain_iff.mp hx
    obtain ⟨v, hv, -⟩ := rampInDomain_iff.mp hy
    have huv : u ≤ v := by
      rw [← (view_eq_finite_false_iff.mp hu).2, ← (view_eq_finite_false_iff.mp hv).2]
      exact magnitude_strictMono.monotone hxy
    rw [tenths_eq hx hu, tenths_eq hy hv]
    exact Nat.div_le_div_right (round53_mono (Nat.mul_le_mul_left 10 huv))

end Sys2Proof.Machine
end

section
/-! SUPPORT. The command encoders: one equation each, their common shape (R140, R143, R155), and O33 to O36
and O40 to O43. -/

namespace Sys2Proof.Machine

variable {s t : State} {c : Config} {i : Instr} {k : Nat}

/-! ### One equation per encoder -/

theorem exec_encProfile (p : Int) (s : State) :
    exec (.encProfile p) s = .next (s.payloadIf (profileInDomain p) (profilePayload s.config p)) := rfl

theorem exec_encSpeed (r : Int) (s : State) :
    exec (.encSpeed r) s = .next (s.payloadIf (rpmInDomain r) (speedPayload s.config r)) := rfl

theorem exec_encAccel (x : Binary64) (s : State) : exec (.encAccel x) s =
    .next (s.payloadIf (rampInDomain x) (rampPayload s.config s.config.opAccel x)) := rfl

theorem exec_encDecel (x : Binary64) (s : State) : exec (.encDecel x) s =
    .next (s.payloadIf (rampInDomain x) (rampPayload s.config s.config.opDecel x)) := rfl

theorem profileInDomain_iff {p : Int} : profileInDomain p = true ↔ 0 ≤ p ∧ p < 16 := by
  simp [profileInDomain]

theorem rpmInDomain_iff {r : Int} : rpmInDomain r = true ↔ 50 ≤ r ∧ r ≤ 3000 := by
  simp [rpmInDomain]

theorem profilePatch_eq (c : Config) (p : Int) :
    profilePatch c p = c.profilePatch.toList.getD p.toNat [] := by
  rw [profilePatch, List.getD_eq_getElem?_getD, Vector.getElem?_toList]

/-- The two bytes of an rpm without a sign. -/
theorem speedBytes_of_nonneg {r : Int} (hr : 0 ≤ r) : speedBytes c r =
    [(c.offSpeed, BitVec.ofNat 8 (r.toNat % 256)), (c.offSpeed + 1, BitVec.ofNat 8 (r.toNat / 256))] := by
  obtain ⟨n, rfl⟩ := Int.eq_ofNat_of_zero_le hr
  rfl

/-! ### The builder's arguments under R8 -/

theorem profile_args (hc : c.ProfileOk) (p : Int) :
    ParamArgs c.kProfile c.tplProfile (profilePatch c p) := by
  obtain ⟨⟨hk, hk'⟩, htpl, hpatch⟩ := hc
  rw [profilePatch_eq]
  by_cases hp : p.toNat < c.profilePatch.toList.length
  · rw [List.getD_eq_getElem _ _ hp]
    obtain ⟨hin, hW⟩ := hpatch _ (List.getElem_mem hp)
    exact ⟨hk, hk', htpl, hin, hW⟩
  · rw [List.getD_eq_default _ _ (not_lt.mp hp)]
    exact ⟨hk, hk', htpl, by simp, List.nodup_nil⟩

theorem speed_args (hc : c.SpeedOk) (r : Int) : ParamArgs c.kSpeed c.tplSpeed (speedBytes c r) := by
  obtain ⟨⟨hk, hk'⟩, htpl, hoff, hoff'⟩ := hc
  refine ⟨hk, hk', htpl, ?_, by simp [speedBytes]⟩
  simp only [speedBytes, List.forall_mem_cons, List.not_mem_nil, false_imp_iff, implies_true, and_true]
  omega

theorem ramp_args (hc : c.RampOk) (op b : Byte) :
    ParamArgs c.kRamp c.tplRamp [(c.offRampOp, op), (c.offRamp, b)] := by
  obtain ⟨⟨hk, hk'⟩, htpl, hoff, hop, hne, -⟩ := hc
  refine ⟨hk, hk', htpl, ?_, by simp [hne]⟩
  simp only [List.forall_mem_cons, List.not_mem_nil, false_imp_iff, implies_true, and_true]
  omega

/-- Every parameterised encoder is a domain check before a payload of the builder. -/
theorem exec_of_checksumIndex (hc : s.config.WellFormed) (hk : checksumIndex s.config i = some k) :
    ∃ tpl W, ParamArgs k tpl W ∧
      exec i s = .next (s.payloadIf i.wellFormed (buildParam s.config.localSum tpl k W)) := by
  obtain ⟨hprofile, hspeed, hramp⟩ := hc
  cases i with
  | encProfile p =>
    obtain rfl := Option.some.inj hk
    exact ⟨_, _, profile_args hprofile p, exec_encProfile p s⟩
  | encSpeed r =>
    obtain rfl := Option.some.inj hk
    exact ⟨_, _, speed_args hspeed r, exec_encSpeed r s⟩
  | encAccel x =>
    obtain rfl := Option.some.inj hk
    exact ⟨_, _, ramp_args hramp _ _, exec_encAccel x s⟩
  | encDecel x =>
    obtain rfl := Option.some.inj hk
    exact ⟨_, _, ramp_args hramp _ _, exec_encDecel x s⟩
  | connect | encode _ | send _ | decode _ | checksum _ | encFwd | encBwd | encStop | encQuery => cases hk

/-! ### The ramp payloads -/

/-- The two patched bytes of a ramp payload; the tenths fit one byte. -/
theorem rampPayload_patched (hc : c.RampOk) (op : Byte) {x : Binary64} (hx : rampInDomain x = true) :
    (rampPayload c op x)[c.offRampOp]? = some op ∧
    ∃ b, (rampPayload c op x)[c.offRamp]? = some b ∧ b.toNat = tenths x := by
  have h := ramp_args hc op (BitVec.ofNat 8 (tenths x))
  obtain ⟨-, hmax⟩ := tenths_range hx
  rw [rampPayload]
  refine ⟨h.patched List.mem_cons_self, _,
    h.patched (List.mem_cons_of_mem _ List.mem_cons_self), ?_⟩
  rw [BitVec.toNat_ofNat, Nat.mod_eq_of_lt (by omega)]

/-- The body for another operation is the body with the byte at OFF_RAMP_OP replaced. -/
theorem paramBody_replace_op (hne : c.offRampOp ≠ c.offRamp) (a d b : Byte) :
    paramBody c.tplRamp [(c.offRampOp, d), (c.offRamp, b)] =
      (paramBody c.tplRamp [(c.offRampOp, a), (c.offRamp, b)]).set c.offRampOp d := by
  rw [paramBody, paramBody, patchBytes_pair, patchBytes_pair, List.set_comm _ _ hne.symm, List.set_set]

/-- R150: the local checksums differ as the operation bytes do. -/
theorem rampPayload_sums (hc : c.RampOk) (hsum : c.localSum = .xorFold) (a d : Byte) (x : Binary64) :
    (rampPayload c a x).getD c.kRamp 0 ^^^ (rampPayload c d x).getD c.kRamp 0 = a ^^^ d := by
  have hA := ramp_args hc a (BitVec.ofNat 8 (tenths x))
  have hD := ramp_args hc d (BitVec.ofNat 8 (tenths x))
  have hop : (paramBody c.tplRamp [(c.offRampOp, a), (c.offRamp, BitVec.ofNat 8 (tenths x))])[c.offRampOp]? =
      some a := hA.body_patched List.mem_cons_self
  obtain ⟨-, -, -, ⟨hop3, -⟩, hne, -⟩ := hc
  rw [rampPayload, rampPayload, List.getD_eq_getElem?_getD, List.getD_eq_getElem?_getD, hA.getElem?_sum,
    hD.getElem?_sum, hsum, paramBody_replace_op hne a d, List.drop_set, if_neg (by omega)]
  simp only [Option.getD_some, localSum]
  rw [xorFold_set (b := a) (by rw [List.getElem?_drop, Nat.add_sub_cancel' hop3, hop]), xor_cancel_left]

theorem rampPayload_getElem?_of_ne (hc : c.RampOk) (a d : Byte) (x : Binary64) {j : Nat}
    (hop : j ≠ c.offRampOp) (hsum : j ≠ c.kRamp) : (rampPayload c a x)[j]? = (rampPayload c d x)[j]? := by
  have hA := ramp_args hc a (BitVec.ofNat 8 (tenths x))
  have hD := ramp_args hc d (BitVec.ofNat 8 (tenths x))
  obtain ⟨-, -, -, -, hne, -⟩ := hc
  rw [rampPayload, rampPayload]
  rcases lt_or_gt_of_ne hsum with hlt | hgt
  · rw [hA.getElem?_of_lt hlt, hD.getElem?_of_lt hlt, paramBody_replace_op hne a d,
      List.getElem?_set_ne (Ne.symm hop)]
  · rw [hA.getElem?_of_gt hgt, hD.getElem?_of_gt hgt]

/-! ### The statements -/

/-- Settles O33: the domain check, and the patch looked up as an entry of a list. -/
theorem encProfilePayload : Obligations.EncProfilePayload := by
  refine fun s p => ⟨rfl, fun hout => ?outside, fun hlow hhigh => ?inside⟩
  case outside =>
    have hp : profileInDomain p = false := by
      rw [← Bool.not_eq_true, profileInDomain_iff]
      omega
    rw [exec_encProfile, hp]
    rfl
  case inside =>
    rw [exec_encProfile, profileInDomain_iff.mpr ⟨hlow, hhigh⟩, profilePayload, profilePatch_eq]
    rfl

/-- Settles O34: the domain check, the bytes of the rpm as natural numbers, and their places. -/
theorem encSpeedPayload : Obligations.EncSpeedPayload := by
  refine fun s r => ⟨rfl, fun hout => ?outside, fun hlow hhigh => ?inside⟩
  case outside =>
    have hr : rpmInDomain r = false := by
      rw [← Bool.not_eq_true, rpmInDomain_iff]
      omega
    rw [exec_encSpeed, hr]
    rfl
  case inside =>
    have hbytes := speedBytes_of_nonneg (c := s.config) (by omega : 0 ≤ r)
    refine ⟨?runs, ?high, fun hc => ?placed⟩
    case runs =>
      rw [exec_encSpeed, rpmInDomain_iff.mpr ⟨hlow, hhigh⟩, speedPayload, hbytes]
      rfl
    case high =>
      rw [BitVec.toNat_ofNat]
      omega
    case placed =>
      obtain ⟨-, hspeed, -⟩ := hc
      have h := speed_args hspeed r
      rw [hbytes] at h
      exact ⟨h.patched List.mem_cons_self,
        h.patched (List.mem_cons_of_mem _ List.mem_cons_self)⟩

/-- Settles O35: the domain check, and the two bytes of the ramp payload of OP_ACCEL. -/
theorem encAccelPayload : Obligations.EncAccelPayload := by
  refine fun s x => ⟨rfl, fun hx => ?outside, fun hx => ⟨?inside, fun hc => ?placed⟩⟩
  case outside => rw [exec_encAccel, hx]; rfl
  case inside => rw [exec_encAccel, hx]; rfl
  case placed =>
    obtain ⟨-, -, hramp⟩ := hc
    exact rampPayload_patched hramp s.config.opAccel hx

/-- Settles O36: the domain check, and the two bytes of the ramp payload of OP_DECEL. -/
theorem encDecelPayload : Obligations.EncDecelPayload := by
  refine fun s x => ⟨rfl, fun hx => ?outside, fun hx => ⟨?inside, fun hc => ?placed⟩⟩
  case outside => rw [exec_encDecel, hx]; rfl
  case inside => rw [exec_encDecel, hx]; rfl
  case placed =>
    obtain ⟨-, -, hramp⟩ := hc
    exact rampPayload_patched hramp s.config.opDecel hx

/-- Settles O40: the two bodies differ in one byte, and the XOR folds of the bodies by that difference. -/
theorem accelDiffersFromDecel : Obligations.AccelDiffersFromDecel := by
  intro s x hc hsum hx
  obtain ⟨-, -, haccel⟩ := encAccelPayload s x
  obtain ⟨-, -, hdecel⟩ := encDecelPayload s x
  obtain ⟨hA, hAop⟩ := haccel hx
  obtain ⟨hD, hDop⟩ := hdecel hx
  obtain ⟨hAop, -⟩ := hAop hc
  obtain ⟨hDop, -⟩ := hDop hc
  obtain ⟨-, -, hramp⟩ := hc
  exact ⟨_, _, hA, hD, (ramp_args hramp _ _).length_eq, (ramp_args hramp _ _).length_eq, hAop, hDop,
    rampPayload_sums hramp hsum _ _ x, fun j => rampPayload_getElem?_of_ne hramp _ _ x⟩

/-- Settles O41: each arm answers a constant of the configuration. -/
theorem fixedEncodersReturnConstants : Obligations.FixedEncodersReturnConstants :=
  fun _ => ⟨⟨rfl, rfl, rfl, rfl⟩, rfl, rfl, rfl, rfl⟩

/-- Settles O42: an accepted operand gives a payload of the builder, a refused one no bytes, and the fixed
payloads have their length by type. -/
theorem encoderPayloadShape : Obligations.EncoderPayloadShape := by
  refine ⟨fun i s k hc hk hi => ?shape, fun i s t B hc hi h hr => ?length⟩
  case shape =>
    obtain ⟨tpl, W, hargs, hexec⟩ := exec_of_checksumIndex hc hk
    rw [hi] at hexec
    exact ⟨_, hexec, hargs.length_eq, hargs.header, fun j hj hj' => hargs.zero_of_gt hj (by omega)⟩
  case length =>
    rcases hi with hi | rfl | rfl | rfl | rfl
    · obtain ⟨k, hk⟩ := Option.ne_none_iff_exists'.mp hi
      obtain ⟨tpl, W, hargs, hexec⟩ := exec_of_checksumIndex hc hk
      obtain rfl := Host.Outcome.next.inj (hexec.symm.trans h)
      cases hw : i.wellFormed with
      | false => rw [hw] at hr; cases hr
      | true =>
        rw [hw] at hr
        cases hr
        exact hargs.length_eq
    all_goals
      cases h
      cases hr
      exact Vector.length_toList

/-- Settles O43: byte K is the fold of the body, and cancels it. -/
theorem localChecksumCancels : Obligations.LocalChecksumCancels := by
  intro i s k hc hsum hk hi
  obtain ⟨tpl, W, hargs, hexec⟩ := exec_of_checksumIndex hc hk
  rw [hi, hsum] at hexec
  refine ⟨_, hexec, ?_, hargs.xorFold_cancels⟩
  rw [hargs.take_eq, hargs.getElem?_sum]
  rfl

end Sys2Proof.Machine
end

section
/-! SUPPORT. Little-endian fields read out of a frame and written back (R10, R184), DECODE, one equation per
outcome (R180, R182), and O30 and O31. -/

namespace Sys2Proof.Machine

variable {s : State} {F G : List Byte}

/-! ### Slices -/

theorem slice_append_drop (F : List Byte) {i j : Nat} (h : i ≤ j) : slice F i j ++ F.drop j = F.drop i := by
  obtain ⟨n, rfl⟩ := Nat.exists_eq_add_of_le h
  rw [slice, Nat.add_sub_cancel_left, ← List.drop_drop, List.take_append_drop]

theorem slice_eq_drop_of_length_eq {i j : Nat} (h : F.length = j) : slice F i j = F.drop i :=
  List.take_of_length_le (by rw [List.length_drop, h])

/-- A slice depends only on what stands from its start on. -/
theorem slice_congr {n i : Nat} (h : F.drop n = G.drop n) (hi : n ≤ i) (j : Nat) :
    slice F i j = slice G i j := by
  obtain ⟨m, rfl⟩ := Nat.exists_eq_add_of_le hi
  rw [slice, slice, ← List.drop_drop, h, List.drop_drop]

/-! ### Little-endian values -/

/-- A byte past the end counts as 0 on both sides. -/
theorem leValue_take_drop_succ (F : List Byte) (k n : Nat) :
    leValue ((F.drop k).take (n + 1)) =
      (F.getD k 0).toNat + 256 * leValue ((F.drop (k + 1)).take n) := by
  by_cases hk : k < F.length
  · rw [List.drop_eq_getElem_cons hk, List.take_succ_cons, leValue, List.getD_eq_getElem _ _ hk]
  · rw [List.drop_of_length_le (by omega), List.drop_of_length_le (by omega),
      List.getD_eq_default _ _ (by omega)]
    simp [leValue]

theorem leValue_slice_four (F : List Byte) (k : Nat) :
    leValue (slice F k (k + 4)) = (F.getD k 0).toNat + 256 * (F.getD (k + 1) 0).toNat +
      65536 * (F.getD (k + 2) 0).toNat + 16777216 * (F.getD (k + 3) 0).toNat := by
  rw [slice, Nat.add_sub_cancel_left, leValue_take_drop_succ, leValue_take_drop_succ,
    leValue_take_drop_succ, leValue_take_drop_succ, List.take_zero, leValue]
  ring

theorem leValue_lt (B : List Byte) : leValue B < 256 ^ B.length := by
  induction B with
  | nil => simp [leValue]
  | cons b B ih =>
    have hb : b.toNat < 256 := b.isLt
    rw [leValue, List.length_cons, Nat.pow_succ]
    omega

theorem le16_leValue (a b : Byte) : le16 (leValue [a, b]) = [a, b] := by
  have ha : a.toNat < 256 := a.isLt
  have hlow : leValue [a, b] % 256 = a.toNat := by simp only [leValue]; omega
  have hhigh : leValue [a, b] / 256 = b.toNat := by simp only [leValue]; omega
  rw [le16, hlow, hhigh, BitVec.ofNat_toNat, BitVec.ofNat_toNat, BitVec.setWidth_eq, BitVec.setWidth_eq]

theorem le32_leValue {B : List Byte} (h : B.length = 4) : le32 (leValue B) = B := by
  match B, h with
  | [a, b, c, d], _ =>
    have hab : leValue [a, b] < 65536 := by simpa using leValue_lt [a, b]
    have happend : leValue [a, b, c, d] = leValue [a, b] + 65536 * leValue [c, d] := by
      simp only [leValue]; ring
    have hlow : leValue [a, b, c, d] % 65536 = leValue [a, b] := by omega
    have hhigh : leValue [a, b, c, d] / 65536 = leValue [c, d] := by omega
    rw [le32, hlow, hhigh, le16_leValue, le16_leValue]
    rfl

/-- Two's complement loses nothing of a 32-bit value. -/
theorem sext32_emod {u : Nat} (h : u < 2 ^ 32) : (sext32 u % 2 ^ 32).toNat = u := by
  unfold sext32
  split <;> omega

theorem le32_le32s {B : List Byte} (h : B.length = 4) : le32 (le32s B % 2 ^ 32).toNat = B := by
  have hlt := leValue_lt B
  rw [h] at hlt
  rw [le32s, sext32_emod hlt, le32_leValue h]

/-! ### The fields -/

/-- The three fields, written back, are the frame from byte 7 on (R184). -/
theorem rawStatusOf_writtenBack (hF : F.length = 40) :
    le32 ((rawStatusOf F).counter0 % 2 ^ 32).toNat ++ le32 ((rawStatusOf F).counter1 % 2 ^ 32).toNat ++
      (rawStatusOf F).aux = F.drop 7 := by
  have hcounter0 : (slice F 7 11).length = 4 := by simp [hF]
  have hcounter1 : (slice F 11 15).length = 4 := by simp [hF]
  calc _ = slice F 7 11 ++ (slice F 11 15 ++ F.drop 15) := by
        rw [rawStatusOf, le32_le32s hcounter0, le32_le32s hcounter1, slice_eq_drop_of_length_eq hF,
          List.append_assoc]
    _ = F.drop 7 := by
        rw [slice_append_drop F (by decide), slice_append_drop F (by decide)]

theorem rawStatusOf_congr (h : F.drop 7 = G.drop 7) : rawStatusOf F = rawStatusOf G := by
  simp only [rawStatusOf, slice_congr h (by decide : 7 ≤ 7), slice_congr h (by decide : 7 ≤ 11),
    slice_congr h (by decide : 7 ≤ 15)]

/-! ### DECODE -/

theorem checksumOk_iff : checksumOk F = true ↔ F[39]? = some (xorFold (F.take 39)) := by
  simp [checksumOk, slice]

theorem exec_decode_of_mismatch (hF : F.length = 40) (hm : s.config.decodeMode = .strict)
    (hsum : checksumOk F = false) : exec (.decode F) s = .next (s.raise .checksumMismatch) := by
  simp [exec, execDecode, hF, hm, hsum]

theorem exec_decode_of_accepted (hF : F.length = 40)
    (h : s.config.decodeMode = .permissive ∨ checksumOk F = true) :
    exec (.decode F) s = .next (s.answer (.rawStatus (rawStatusOf F))) := by
  rcases h with hm | hsum
  · simp [exec, execDecode, hF, hm]
  · simp [exec, execDecode, hF, hsum]

/-! ### The statements -/

/-- Settles O30: one equation per outcome; the counters are the values of their four bytes. -/
theorem decodeSplitsFrame : Obligations.DecodeSplitsFrame := by
  refine ⟨rfl, fun s F => ⟨rfl, exec_decode_of_length_ne s, ?mismatch, ?accepted⟩⟩
  case mismatch =>
    exact fun hF hm hsum => exec_decode_of_mismatch hF hm
      (Bool.eq_false_iff.mpr fun hok => hsum (checksumOk_iff.mp hok))
  case accepted =>
    intro hF h
    rw [exec_decode_of_accepted hF (h.imp_right checksumOk_iff.mpr), rawStatusOf, le32s, le32s,
      leValue_slice_four F 7, leValue_slice_four F 11, slice_eq_drop_of_length_eq hF]
    rfl

/-- Settles O31: the fields keep every bit from byte 7 on and read no byte before it; a built frame ends
with its fold. -/
theorem decodedFieldsGiveBackFrame : Obligations.DecodedFieldsGiveBackFrame := by
  refine ⟨?writtenBack, ?strict, ?congr⟩
  case writtenBack =>
    exact fun s F hF hm => ⟨_, exec_decode_of_accepted hF (.inl hm), rawStatusOf_writtenBack hF⟩
  case strict =>
    intro s P e q _ hP _ _
    obtain ⟨hlen, -, hsum, -⟩ := buildFrame_shape e q hP
    exact ⟨_, exec_decode_of_accepted hlen (.inr (checksumOk_iff.mpr hsum))⟩
  case congr =>
    intro s F G hF hG hm h
    rw [exec_decode_of_accepted hF (.inl hm), exec_decode_of_accepted hG (.inl hm), rawStatusOf_congr h]

end Sys2Proof.Machine
end

section
/-! SUPPORT. The time reads that operations and block resets add to the history (R112, R122, R209), and
O56. -/

namespace Sys2Proof.Machine

variable {s t u : State}

/-! ### The history since the last reset -/

theorem sinceReset_snoc (tr : List Event) (e : Event) :
    sinceReset (tr ++ [e]) = if e = .blockReset then [] else sinceReset tr ++ [e] := by
  simp [sinceReset]

theorem sinceReset_append (tr : List Event) {new : List Event} (h : .blockReset ∉ new) :
    sinceReset (tr ++ new) = sinceReset tr ++ new := by
  induction new using List.reverseRecOn with
  | nil => simp
  | append_singleton new e ih =>
    simp only [List.mem_append, List.mem_singleton, not_or] at h
    obtain ⟨hnew, he⟩ := h
    rw [← List.append_assoc, sinceReset_snoc, if_neg (Ne.symm he), ih hnew, List.append_assoc]

@[simp] theorem sinceReset_blockReset (tr : List Event) : sinceReset (tr ++ [.blockReset]) = [] :=
  (sinceReset_snoc tr .blockReset).trans (if_pos rfl)

/-! ### Counting the time reads -/

/-- From `s` to `t` the history grew by events without a block reset, `n` of them time reads. -/
def AddsTimeReads (n : Nat) (s t : State) : Prop :=
  ∃ new, t.env.trace = s.env.trace ++ new ∧ .blockReset ∉ new ∧ new.countP Event.isTimeRead = n

theorem AddsTimeReads.of_env_eq (h : t.env = s.env) : AddsTimeReads 0 s t :=
  ⟨[], by rw [h, List.append_nil], List.not_mem_nil, rfl⟩

theorem AddsTimeReads.trans {m n : Nat} (hst : AddsTimeReads m s t) (htu : AddsTimeReads n t u) :
    AddsTimeReads (m + n) s u := by
  obtain ⟨new, htrace, hreset, hcount⟩ := hst
  obtain ⟨new', htrace', hreset', hcount'⟩ := htu
  refine ⟨new ++ new', ?_, ?_, ?_⟩
  · rw [htrace', htrace, List.append_assoc]
  · simp [hreset, hreset']
  · rw [List.countP_append, hcount, hcount']

theorem AddsTimeReads.count_sinceReset {n : Nat} (h : AddsTimeReads n s t) :
    (sinceReset t.env.trace).countP Event.isTimeRead =
      (sinceReset s.env.trace).countP Event.isTimeRead + n := by
  obtain ⟨new, htrace, hreset, hcount⟩ := h
  rw [htrace, sinceReset_append _ hreset, List.countP_append, hcount]

/-! ### What each part of an operation adds -/

theorem afterStamp_addsTimeReads (s : State) : AddsTimeReads 1 s s.afterStamp :=
  ⟨[.now s.env.nowValue], rfl, by simp, rfl⟩

theorem exchange_addsTimeReads (s : State) (F : List Byte) : AddsTimeReads 0 s (s.exchange F) := by
  obtain ⟨new, -, htrace, -, -, -, -, -, ⟨a, rfl, -⟩ | ⟨b, rfl, -⟩⟩ := exchange_summary s F
  · exact ⟨_, htrace, by simp, rfl⟩
  · exact ⟨_, htrace, by simp, rfl⟩

/-- A handshake reads the time exactly where it opens the session (R112). -/
theorem handshake_addsTimeReads (s : State) :
    (s.handshake.session = s.session ∧ AddsTimeReads 0 s s.handshake) ∨
    (s.handshake.session.connected = true ∧
      s.handshake.session.sequence = s.session.sequence ∧ AddsTimeReads 1 s s.handshake) := by
  rcases handshake_summary s with
    ⟨new, r, htrace, hs, -, -, -, -, -, ⟨a, rfl, -⟩ | ⟨b, rfl, -⟩⟩ | ⟨x, htrace, hs, -⟩
  · exact .inl ⟨hs, _, htrace, by simp, rfl⟩
  · exact .inl ⟨hs, _, htrace, by simp, rfl⟩
  · exact .inr ⟨by rw [hs], by rw [hs], _, htrace, by simp, rfl⟩

/-! ### The invariant -/

/-- Nothing is read and the session stays. -/
theorem AddsTimeReads.keeps_timeReadInv (h : AddsTimeReads 0 s t) (hsession : t.session = s.session)
    (hinv : TimeReadInv s) : TimeReadInv t := by
  rw [TimeReadInv, h.count_sinceReset, hsession, hinv, Nat.add_zero]

/-- The one time read of an opened session is its epoch's: no frame is counted yet (R26). -/
theorem timeReadInv_of_opened (h : AddsTimeReads 1 s t) (hclosed : s.session.connected = false)
    (hzero : s.session.sequence = 0) (hopen : t.session.connected = true)
    (hsequence : t.session.sequence = s.session.sequence) (hinv : TimeReadInv s) : TimeReadInv t := by
  rw [TimeReadInv, h.count_sinceReset, hinv]
  simp [hclosed, hopen, hsequence, hzero]

/-- A frame that is counted reads the time once (R122). -/
theorem timeReadInv_of_counted (h : AddsTimeReads 1 s t) (hopen : s.session.connected = true)
    (hsession : t.session = { s.session with sequence := s.session.sequence + 1 })
    (hinv : TimeReadInv s) : TimeReadInv t := by
  rw [TimeReadInv, h.count_sinceReset, hinv]
  simp [hopen, hsession]

theorem exec_keeps_timeReadInv {i : Instr} (hsession : SessionInv s) (hinv : TimeReadInv s)
    (h : exec i s = .next t) : TimeReadInv t := by
  rcases exec_cases i s t h with ⟨r, rfl, -⟩ | ⟨-, hc, rfl⟩ | ⟨P, -, hc, -, rfl⟩ | ⟨P, -, hc, -, rfl⟩
  · exact hinv
  · rcases handshake_addsTimeReads s with ⟨hs, hadds⟩ | ⟨hopen, hseq, hadds⟩
    · exact hadds.keeps_timeReadInv hs hinv
    · exact timeReadInv_of_opened hadds hc (hsession.1 hc).2 hopen hseq hinv
  · exact timeReadInv_of_counted (afterStamp_addsTimeReads s) hc rfl hinv
  · exact timeReadInv_of_counted ((afterStamp_addsTimeReads s).trans (exchange_addsTimeReads _ _)) hc
      (exchange_session _ _) hinv

/-- Settles O56: an idle step and an illegal request read no time, a block reset leaves no event and no
session, and an operation reads one time for the session it opens or the frame it counts. -/
theorem stepKeepsTimeReads : Obligations.StepKeepsTimeReads := by
  intro s t hsession hinv h
  rcases step_cases s with ⟨-, hs⟩ | ⟨rest, -, hs⟩ | ⟨r, rest, i, -, -, hs⟩ | ⟨r, rest, why, -, -, hs⟩
  all_goals rw [hs] at h
  · exact Host.Outcome.next.inj h ▸ hinv
  · obtain rfl := Host.Outcome.next.inj h
    simp [TimeReadInv, Session.reset]
  · exact exec_keeps_timeReadInv (s := s.takeMove) hsession hinv h
  · obtain rfl := Host.Outcome.next.inj h
    exact hinv

end Sys2Proof.Machine
end

section
/-! SUPPORT. How every operation ends: the status, the result and what an error leaves of the session
(R200, R201, R204, R205), and O5, O8, O45, O46, O47. -/

namespace Sys2Proof.Machine

variable {s t : State} {i : Instr}

/-! ### One operation -/

/-- No operation faults or is refused. -/
theorem exec_answers (i : Instr) (s : State) : ∃ t, exec i s = .next t := by
  cases i <;> exact ⟨_, rfl⟩

/-- A handshake that fails leaves the session (R110, R204). -/
theorem handshake_response (s : State) : ∃ r, s.handshake.response = some r ∧
    r.status ∈ mayEndWith .connect ∧ (r.status ≠ .ok → r.result = .empty ∧
      s.handshake.session = s.session) := by
  rcases handshake_summary s with ⟨-, r, -, hs, hr, -, -, hstatus, hempty, -⟩ | ⟨x, -, -, hr, -⟩
  · refine ⟨r, hr, ?_, fun _ => ⟨hempty, hs⟩⟩
    simp only [List.mem_cons, List.not_mem_nil, or_false] at hstatus
    rcases hstatus with h | h | h <;> simp [h, mayEndWith]
  · exact ⟨_, hr, by simp [mayEndWith], fun hne => absurd rfl hne⟩

theorem exchange_response (s : State) (F : List Byte) : ∃ r, (s.exchange F).response = some r ∧
    (r.status = .ok ∨ r.status = .ioError ∧ r.result = .empty) := by
  obtain ⟨-, r, -, -, -, -, hr, hstatus, -⟩ := exchange_summary s F
  exact ⟨r, hr, hstatus⟩

theorem handshake_pending (s : State) : s.handshake.pending = s.pending := by
  rcases handshake_summary s with ⟨-, -, -, -, -, -, hp, -⟩ | ⟨-, -, -, -, -, hp⟩ <;> exact hp

theorem exchange_pending (s : State) (F : List Byte) : (s.exchange F).pending = s.pending := by
  obtain ⟨-, -, -, -, -, hp, -⟩ := exchange_summary s F
  exact hp

theorem exec_pending (h : exec i s = .next t) : t.pending = s.pending := by
  rcases exec_cases i s t h with ⟨r, rfl, -⟩ | ⟨-, -, rfl⟩ | ⟨P, -, -, -, rfl⟩ | ⟨P, -, -, -, rfl⟩
  · rfl
  · exact handshake_pending s
  · rfl
  · exact exchange_pending s.afterStamp _

/-- Every operation ends with a status it may raise, an error with the empty result (R200, R201). -/
theorem exec_response (h : exec i s = .next t) : ∃ r, t.response = some r ∧
    r.status ∈ mayEndWith i ∧ (r.status ≠ .ok → r.result = .empty) := by
  rcases exec_cases i s t h with
    ⟨r, rfl, hmem, hempty, -⟩ | ⟨rfl, -, rfl⟩ | ⟨P, rfl, -, -, rfl⟩ | ⟨P, rfl, -, -, rfl⟩
  · exact ⟨r, rfl, hmem, hempty⟩
  · obtain ⟨r, hr, hmem, herr⟩ := handshake_response s
    exact ⟨r, hr, hmem, fun hne => (herr hne).1⟩
  · exact ⟨_, rfl, by simp [mayEndWith], fun hne => absurd rfl hne⟩
  · obtain ⟨r, hr, hok | ⟨hio, hempty⟩⟩ := exchange_response s.afterStamp (stampFrame s P)
    · exact ⟨r, hr, by simp [hok, mayEndWith], fun hne => absurd hok hne⟩
    · exact ⟨r, hr, by simp [hio, mayEndWith], fun _ => hempty⟩

/-! ### The statements -/

/-- Settles O45: an operation that writes the response only leaves the session, and so does a handshake
that fails; a SEND that fails in its exchange has counted its frame. -/
theorem errorsLeaveTheSession : Obligations.ErrorsLeaveTheSession := by
  intro i s t r h hr
  refine ⟨exec_config h, ?_⟩
  rcases exec_cases i s t h with
    ⟨r', rfl, -, -, -, hio⟩ | ⟨rfl, -, rfl⟩ | ⟨P, rfl, -, -, rfl⟩ | ⟨P, rfl, -, -, rfl⟩
  · obtain rfl := Option.some.inj hr
    exact ⟨fun _ => .inl rfl, fun P hi hstatus => absurd hstatus (hio P hi)⟩
  · obtain ⟨r', hr', -, herr⟩ := handshake_response s
    obtain rfl := Option.some.inj (hr.symm.trans hr')
    exact ⟨fun hne => .inl (herr hne).2, fun P hi => by cases hi⟩
  · obtain rfl := Option.some.inj hr
    exact ⟨fun hne => absurd rfl hne, fun P hi => by cases hi⟩
  · have hsession := exchange_session s.afterStamp (stampFrame s P)
    obtain ⟨r', hr', hend⟩ := exchange_response s.afterStamp (stampFrame s P)
    obtain rfl := Option.some.inj (hr.symm.trans hr')
    exact ⟨fun hne => .inr ⟨P, rfl, (hend.resolve_left hne).1, hsession⟩, fun _ _ _ => hsession⟩

/-- Settles O46: an operation has a next state, and its response and moves are known there. -/
theorem everyOperationAnswersItsStatuses : Obligations.EveryOperationAnswersItsStatuses := by
  intro i s
  obtain ⟨t, h⟩ := exec_answers i s
  obtain ⟨r, hr, hmem, hempty⟩ := exec_response h
  exact ⟨t, r, h, hr, hmem, hempty, exec_pending h⟩

/-- Settles O5: the equation of an idle step. -/
theorem idleStepHoldsState : Obligations.IdleStepHoldsState := fun _ => step_of_idle

/-- Settles O8: a step has a next state of its own or is an operation, which has one. -/
theorem everyStepAnswers : Obligations.EveryStepAnswers := by
  intro s
  rcases step_cases s with ⟨-, hs⟩ | ⟨rest, -, hs⟩ | ⟨r, rest, i, -, -, hs⟩ | ⟨r, rest, why, -, -, hs⟩
  all_goals rw [hs]
  · exact ⟨_, rfl⟩
  · exact ⟨_, rfl⟩
  · exact exec_answers i s.takeMove
  · exact ⟨_, rfl⟩

/-! ### The codes -/

/-- The status of a code, OK for a number that is no code: what `Status.code` is undone by. -/
def statusOfCode (n : Nat) : Status :=
  [Status.ok, .notConnected, .handshakeRejected, .invalidPayloadLength, .invalidFrameLength,
    .outOfRange, .timeout, .ioError, .illegalOperation, .alreadyConnected, .checksumMismatch].getD n .ok

theorem statusOfCode_code (e : Status) : statusOfCode e.code = e := by cases e <;> rfl

theorem status_code_injective : Function.Injective Status.code :=
  Function.LeftInverse.injective statusOfCode_code

/-- `e'` is explicit: the statements write its code as a number. -/
theorem status_code_eq_iff (e e' : Status) : e.code = e'.code ↔ e = e' :=
  status_code_injective.eq_iff

/-- Settles O47: each status has its row of R201, and a code belongs to one status only. -/
theorem statusCodesAndKinds : Obligations.StatusCodesAndKinds := by
  intro e
  refine ⟨?row, fun _ h => status_code_injective h, ?codes⟩
  case row => cases e <;> simp [Status.code, Status.kind]
  case codes =>
    exact ⟨status_code_eq_iff e .ok, status_code_eq_iff e .notConnected,
      status_code_eq_iff e .handshakeRejected, status_code_eq_iff e .invalidPayloadLength,
      status_code_eq_iff e .invalidFrameLength, status_code_eq_iff e .outOfRange,
      status_code_eq_iff e .timeout, status_code_eq_iff e .ioError,
      status_code_eq_iff e .illegalOperation, status_code_eq_iff e .alreadyConnected,
      status_code_eq_iff e .checksumMismatch⟩

end Sys2Proof.Machine
end

section
/-! SUPPORT. Frames and handshakes in the history (R23, R241, R243): what a run of new events keeps, then the
handshake, the exchange and the block reset, and O57 and O6. -/

namespace Sys2Proof.Machine

variable {s t : State}

/-! ### The guard over a history that grew -/

/-- The guard of `framesGuarded` is open after a history exactly where the events since its last reset
hold an accepted handshake. `acc` stands for the events before `tr`, as in the fold of `sinceReset`. -/
theorem framesGuarded_append_of_accepted (acc tr new : List Event) :
    framesGuarded (acc.any Event.isAccept) (tr ++ new) =
      (framesGuarded (acc.any Event.isAccept) tr &&
        framesGuarded ((tr.foldl (fun acc e => if e = .blockReset then [] else acc ++ [e]) acc).any
          Event.isAccept) new) := by
  induction tr generalizing acc with
  | nil => simp [framesGuarded]
  | cons e tr ih =>
    by_cases he : e = .blockReset
    · simpa [framesGuarded, he] using ih []
    · have hstep := ih (acc ++ [e])
      simp only [List.any_append, List.any_cons, List.any_nil, Bool.or_false] at hstep
      simp [framesGuarded, he, hstep, Bool.and_assoc]

theorem framesGuarded_append (tr new : List Event) :
    framesGuarded false (tr ++ new) =
      (framesGuarded false tr && framesGuarded ((sinceReset tr).any Event.isAccept) new) :=
  framesGuarded_append_of_accepted [] tr new

/-- Once a handshake is accepted every event may follow, up to the next block reset (R243). -/
theorem framesGuarded_of_open {es : List Event} (h : .blockReset ∉ es) : framesGuarded true es = true := by
  induction es with
  | nil => rfl
  | cons e es ih =>
    obtain ⟨he, hes⟩ := not_or.mp (mt List.mem_cons.mpr h)
    simp [framesGuarded, Ne.symm he, ih hes]

/-- Events without a block reset keep the invariant if none of them writes a frame ahead of its handshake
and the session is opened exactly where one of them accepts. -/
theorem guardInv_of_append {new : List Event} (htrace : t.env.trace = s.env.trace ++ new)
    (hreset : .blockReset ∉ new) (hguard : framesGuarded s.session.connected new = true)
    (hconnected : t.session.connected = (s.session.connected || new.any Event.isAccept))
    (hs : GuardInv s) : GuardInv t := by
  obtain ⟨hframes, hhandshake⟩ := hs
  rw [HandshakeInv] at hhandshake
  refine ⟨?frames, ?handshake⟩
  case frames => rw [htrace, framesGuarded_append, hframes, ← hhandshake, hguard, Bool.and_true]
  case handshake =>
    rw [HandshakeInv, htrace, sinceReset_append _ hreset, List.any_append, ← hhandshake, hconnected]

/-! ### The events that accept, and those that write a frame -/

@[simp] theorem isAccept_now (x : Int) : (Event.now x).isAccept = false := rfl

@[simp] theorem isAccept_txWrite (B : List Byte) (a : WriteAnswer) :
    (Event.txWrite B a).isAccept = false := rfl

@[simp] theorem isAccept_acknowledged : (Event.txRead 1 (.ok [0x86#8])).isAccept = true := rfl

/-- A read of at most one byte that is not the accepting one accepts nothing (R64, R110). -/
theorem isAccept_eq_false {b : ReadAnswer} (hb : b ≠ .ok [0x86#8])
    (hlength : ∀ R, b = .ok R → R.length ≤ 1) : (Event.txRead 1 b).isAccept = false := by
  match b with
  | .ioError => rfl
  | .ok [] => rfl
  | .ok [x] => simpa [Event.isAccept] using hb
  | .ok (x :: y :: R) => exact absurd (hlength _ rfl) (by simp)

@[simp] theorem isFrameWrite_now (x : Int) : (Event.now x).isFrameWrite = false := rfl

@[simp] theorem isFrameWrite_txRead (n : Nat) (b : ReadAnswer) :
    (Event.txRead n b).isFrameWrite = false := rfl

@[simp] theorem isFrameWrite_hsReq (a : WriteAnswer) :
    (Event.txWrite [0x06#8] a).isFrameWrite = false := rfl

/-! ### What each part of an operation keeps -/

/-- A handshake writes no frame, and opens the session exactly where it reads the accepting byte (R110). -/
theorem handshake_keeps_guardInv (hs : GuardInv s) : GuardInv s.handshake := by
  rcases handshake_summary s with
    ⟨new, r, htrace, hsession, -, -, -, -, -, ⟨a, rfl, -⟩ | ⟨b, rfl, hb, hlength⟩⟩ |
    ⟨x, htrace, hsession, -⟩
  · exact guardInv_of_append htrace (by simp) (by simp [framesGuarded]) (by simp [hsession]) hs
  · exact guardInv_of_append htrace (by simp) (by simp [framesGuarded])
      (by simp [hsession, isAccept_eq_false hb hlength]) hs
  · exact guardInv_of_append htrace (by simp) (by simp [framesGuarded]) (by simp [hsession]) hs

theorem afterStamp_keeps_guardInv (hs : GuardInv s) : GuardInv s.afterStamp :=
  guardInv_of_append (afterNow_trace s.env) (by simp) (by simp [framesGuarded]) (by simp) hs

/-- Once the session is open a frame may be written, and no read closes it (R243, R241). -/
theorem exchange_keeps_guardInv (hopen : s.session.connected = true) (F : List Byte) (hs : GuardInv s) :
    GuardInv (s.exchange F) := by
  obtain ⟨new, -, htrace, hsession, -, -, -, -, hnew⟩ := exchange_summary s F
  have hreset : .blockReset ∉ new := by rcases hnew with ⟨a, rfl, -⟩ | ⟨b, rfl, -⟩ <;> simp
  exact guardInv_of_append htrace hreset (by rw [hopen, framesGuarded_of_open hreset])
    (by simp [hsession, hopen]) hs

theorem exec_keeps_guardInv {i : Instr} (hs : GuardInv s) (h : exec i s = .next t) : GuardInv t := by
  rcases exec_cases i s t h with
    ⟨r, rfl, -⟩ | ⟨-, -, rfl⟩ | ⟨P, -, -, -, rfl⟩ | ⟨P, -, hopen, -, rfl⟩
  · exact hs
  · exact handshake_keeps_guardInv hs
  · exact afterStamp_keeps_guardInv hs
  · exact exchange_keeps_guardInv (s := s.afterStamp) hopen _ (afterStamp_keeps_guardInv hs)

/-- A block reset writes nothing, closes the session, and leaves no event after it (R240, R241). -/
theorem blockReset_keeps_guardInv (hs : GuardInv s) : GuardInv s.blockReset := by
  obtain ⟨hframes, -⟩ := hs
  refine ⟨?frames, ?handshake⟩
  case frames => simp [framesGuarded_append, hframes, framesGuarded]
  case handshake => simp [HandshakeInv, Session.reset]

/-! ### The statements -/

/-- Settles O57: an idle step and an illegal request add no event, a block reset asks for a new handshake,
and an operation writes a frame only in an open session, which only an accepted handshake opens. -/
theorem stepKeepsFramesGuarded : Obligations.StepKeepsFramesGuarded := by
  intro s t hinv h
  rcases step_cases s with ⟨-, hs⟩ | ⟨rest, -, hs⟩ | ⟨r, rest, i, -, -, hs⟩ | ⟨r, rest, why, -, -, hs⟩
  all_goals rw [hs] at h
  · exact Host.Outcome.next.inj h ▸ hinv
  · exact Host.Outcome.next.inj h ▸ blockReset_keeps_guardInv (s := s.takeMove) hinv
  · exact exec_keeps_guardInv (s := s.takeMove) hinv h
  · exact Host.Outcome.next.inj h ▸ hinv

/-- Settles O6: the equation of a step on a reset move, with the taken move written out. -/
theorem blockResetClearsSession : Obligations.BlockResetClearsSession := by
  intro s rest hp
  rw [step_of_reset hp, takeMove_of_pending hp]
  rfl

end Sys2Proof.Machine
end
